-- ==== Sys2Proof/Word.lean ====
section
/-! DEFINITION. Word.lean: the machine's units of data (spec/00_scope.md R9, R10, R12) and the names of its seven
registers (spec/10_state.md R20). Nothing here computes: bit fields, byte order and zero extension are in Decode.lean
and Machine/Ops.lean. -/

namespace Sys2Proof

/-- A byte, the unit of memory and of the instruction stream (R9, R70). -/
abbrev Byte := BitVec 8

/-- A word: every register, immediate and address is a 64-bit unsigned number (R8 `XLEN`, R10). Its `+` and `-` wrap
modulo 2^64 and its `~~~` is the bitwise NOT at 64 bits, which is what R10 asks of `+`, `-` and `~`. -/
abbrev Word := BitVec 64

/-- Half a byte: a register code, a mode nibble or a complement kind (R9, R21). -/
abbrev Nibble := BitVec 4

/-- The two access widths of the core (R12, R54): one byte or one 8-byte word. -/
inductive Width where
  | byte
  | word
deriving DecidableEq, Repr

/-- The seven registers of R20, under the names R20 gives them: accumulator, base, counter, data, frame-base pointer,
stack pointer, program counter. Which code selects which register is Decode.lean's table (R21). -/
inductive Reg where
  | a
  | b
  | c
  | d
  | bp
  | sp
  | pc
deriving DecidableEq, Repr

end Sys2Proof
end

