-- ==== Sys2Proof/Config.lean ====
section
/-! DEFINITION. Config.lean: the parameters of spec/00_scope.md R8 that are a value, each at the spec's default, and the
one free value. The parameters that are a table stand where they are used: `REG_CODE_MAP`, `MODE_TABLE` and
`CMPL_KIND_TABLE` in Decode.lean, `FLAG_BITS` in Machine/Flags.lean. -/

namespace Sys2Proof.Config

/-- `MEM_CAPACITY`, 16 MiB = 0x0100_0000 bytes (R8, R34, R50; the spec's decision D14). -/
def memCapacity : Nat := 0x01000000

/-- What a byte of memory reads as when nothing has written it: memory is zero-initialized at creation (R34, R36, R61). -/
def unlistedByte : Byte := 0

/-- `SRC_WIDTH_MEMREG`: a register-indirect source is one byte, zero-extended (R8, R105; D9, C8). -/
def srcWidthMemReg : Width := .byte

/-- `SRC_WIDTH_MEMIMM`: a source at an immediate address is an 8-byte word (R8, R104; D9). -/
def srcWidthMemImm : Width := .word

/-- `ARITH_MEMDEST_WIDTH`: ADD and SUB read a memory destination as an 8-byte word (R8, R108; D10). -/
def arithMemDestWidth : Width := .word

/-- `STRICT_IGNORED_BITS`: false, the decoder ignores the ignored bits (R8, R88; D6, D8, D11). -/
def strictIgnoredBits : Bool := false

/-- `BOUNDS_CHECK`: on, an access out of range raises MemoryFault (R8, R55; D13). Off, such an access is stuck (I3). -/
def boundsCheck : Bool := true

/-- `INIT_REGS`: the launch inputs, the values of A, B, C, D, BP and SP at creation (R8, R36). -/
structure InitRegs where
  a : Word
  b : Word
  c : Word
  d : Word
  bp : Word
  sp : Word
deriving DecidableEq, Repr

/-- DESIGN CHOICE (log entry 1): the launch inputs of `State.reset`. The spec leaves the six registers unspecified (R36,
I5); `State.create` takes them as its argument, and only `State.reset` fixes them, at zero. -/
def initRegs : InitRegs := ⟨0, 0, 0, 0, 0, 0⟩

/-- FREE VALUE (log entry 3): the word PC holds in the Faulted state. R207 leaves it an arbitrary word and lets no claim
read it, so it has no body here; it is applied to the plain counter `State.free`. -/
opaque pcAfterFault : Nat → Word

end Sys2Proof.Config
end

