-- ==== Sys2Proof/Syntax.lean ====
section
/-! DEFINITION. Syntax.lean: the instructions, one constructor per row of spec/opcode_table.json, in the table's order.
Operands are in the spec's order, source first (spec/00_scope.md R14). Registers are `Reg`, so a register code outside
0 to 6 cannot be written; the decoder is what meets one (R21). The suffixes are those of spec/30_encoding.md R76 and R84:
I immediate, R register, Mi memory at an immediate address, Mr memory at the address a register holds. -/

namespace Sys2Proof

inductive Instr where
  /-- `MOV #imm, rd` (R130). -/
  | movIR (imm : Word) (rd : Reg)
  /-- `MOV rs, rd` (R131). -/
  | movRR (rs rd : Reg)
  /-- `MOV [#sa], rd`, a word load (R132). -/
  | movMiR (sa : Word) (rd : Reg)
  /-- `MOV [rs], rd`, a byte load (R133). -/
  | movMrR (rs rd : Reg)
  /-- `MOV #imm, [rd]` (R134). -/
  | movIMr (imm : Word) (rd : Reg)
  /-- `MOV rs, [rd]` (R135). -/
  | movRMr (rs rd : Reg)
  /-- `MOV [#sa], [#da]` (R136). -/
  | movMiMi (sa da : Word)
  /-- `ADD #imm, rd` (R151). -/
  | addIR (imm : Word) (rd : Reg)
  /-- `ADD rs, rd` (R152). -/
  | addRR (rs rd : Reg)
  /-- `ADD [#sa], rd` (R153). -/
  | addMiR (sa : Word) (rd : Reg)
  /-- `ADD [rs], rd`, a byte addend (R154). -/
  | addMrR (rs rd : Reg)
  /-- `ADD #imm, [rd]` (R155). -/
  | addIMr (imm : Word) (rd : Reg)
  /-- `ADD rs, [rd]` (R156). -/
  | addRMr (rs rd : Reg)
  /-- `ADD [#sa], [#da]` (R157). -/
  | addMiMi (sa da : Word)
  /-- `SUB #imm, rd` (R161). -/
  | subIR (imm : Word) (rd : Reg)
  /-- `SUB rs, rd` (R162). -/
  | subRR (rs rd : Reg)
  /-- `SUB [#sa], rd` (R163). -/
  | subMiR (sa : Word) (rd : Reg)
  /-- `SUB [rs], rd`, a byte subtrahend (R164). -/
  | subMrR (rs rd : Reg)
  /-- `SUB #imm, [rd]` (R165). -/
  | subIMr (imm : Word) (rd : Reg)
  /-- `SUB rs, [rd]` (R166). -/
  | subRMr (rs rd : Reg)
  /-- `SUB [#sa], [#da]` (R167). -/
  | subMiMi (sa da : Word)
  /-- `NOT r` (R181). -/
  | notReg (r : Reg)
  /-- `NOT [#da]` (R181). -/
  | notMemImm (da : Word)
  /-- `NOT [r]` (R181). -/
  | notMemReg (r : Reg)
  /-- `NOT6 r` (R182). -/
  | not6Reg (r : Reg)
  /-- `NOT6 [#da]` (R182). -/
  | not6MemImm (da : Word)
  /-- `NOT6 [r]` (R182). -/
  | not6MemReg (r : Reg)
  /-- `NOP` (R190). -/
  | nop
  /-- `HALT` (R191). -/
  | halt
deriving DecidableEq, Repr

end Sys2Proof
end

