-- ==== Sys2Proof/WellFormed.lean ====
section
/-! DEFINITION. WellFormed.lean: the notation of spec/00_scope.md R14, in which any operand may be written in any place,
and the check of which lines of it are instructions: the operand pairs of spec/30_encoding.md R76 and the complement
operands of R84. `Instr` itself has a constructor only for what the check admits; the check says so of the notation,
and the encoder of Decode.lean refuses what it refuses (R89). -/

namespace Sys2Proof

/-- The mnemonics of the two-operand instructions (R71). -/
inductive Op2 where
  | mov
  | add
  | sub
deriving DecidableEq, Repr

/-- The mnemonics of the one-operand instructions (R71): two opcodes, one effect. -/
inductive Op1 where
  | not
  | not6
deriving DecidableEq, Repr

/-- An operand as R14 writes it: `R`, `#v`, `[#a]`, `[R]`. -/
inductive Operand where
  | reg (r : Reg)
  | imm (v : Word)
  | memImm (a : Word)
  | memReg (r : Reg)
deriving DecidableEq, Repr

/-- A line in the notation of R14: `OP src, dst`, `OP operand`, `NOP`, `HALT`. -/
inductive Source where
  | two (op : Op2) (src dst : Operand)
  | one (op : Op1) (operand : Operand)
  | nop
  | halt
deriving DecidableEq, Repr

/-- R17: an immediate is never a destination, nor what the complement complements. -/
def Operand.isPlace : Operand → Bool
  | .imm _ => false
  | .reg _ | .memImm _ | .memReg _ => true

/-- R76: the seven recognized addressing combinations, as a pair of source and destination. -/
def recognizedPair : Operand → Operand → Bool
  | .imm _, .reg _ | .reg _, .reg _ | .memImm _, .reg _ | .memReg _, .reg _ => true
  | .imm _, .memReg _ | .reg _, .memReg _ | .memImm _, .memImm _ => true
  | .memImm _, .memReg _ | .memReg _, .memReg _ => false
  | .imm _, .memImm _ | .reg _, .memImm _ | .memReg _, .memImm _ => false
  | _, .imm _ => false

/-- Which lines of the notation are instructions (R17, R76, R84, R89). -/
def Source.wellFormed : Source → Bool
  | .two _ src dst => dst.isPlace && recognizedPair src dst
  | .one _ operand => operand.isPlace
  | .nop | .halt => true

/-- An instruction written in the notation of R14. -/
def Instr.toSource : Instr → Source
  | .movIR imm rd => .two .mov (.imm imm) (.reg rd)
  | .movRR rs rd => .two .mov (.reg rs) (.reg rd)
  | .movMiR sa rd => .two .mov (.memImm sa) (.reg rd)
  | .movMrR rs rd => .two .mov (.memReg rs) (.reg rd)
  | .movIMr imm rd => .two .mov (.imm imm) (.memReg rd)
  | .movRMr rs rd => .two .mov (.reg rs) (.memReg rd)
  | .movMiMi sa da => .two .mov (.memImm sa) (.memImm da)
  | .addIR imm rd => .two .add (.imm imm) (.reg rd)
  | .addRR rs rd => .two .add (.reg rs) (.reg rd)
  | .addMiR sa rd => .two .add (.memImm sa) (.reg rd)
  | .addMrR rs rd => .two .add (.memReg rs) (.reg rd)
  | .addIMr imm rd => .two .add (.imm imm) (.memReg rd)
  | .addRMr rs rd => .two .add (.reg rs) (.memReg rd)
  | .addMiMi sa da => .two .add (.memImm sa) (.memImm da)
  | .subIR imm rd => .two .sub (.imm imm) (.reg rd)
  | .subRR rs rd => .two .sub (.reg rs) (.reg rd)
  | .subMiR sa rd => .two .sub (.memImm sa) (.reg rd)
  | .subMrR rs rd => .two .sub (.memReg rs) (.reg rd)
  | .subIMr imm rd => .two .sub (.imm imm) (.memReg rd)
  | .subRMr rs rd => .two .sub (.reg rs) (.memReg rd)
  | .subMiMi sa da => .two .sub (.memImm sa) (.memImm da)
  | .notReg r => .one .not (.reg r)
  | .notMemImm da => .one .not (.memImm da)
  | .notMemReg r => .one .not (.memReg r)
  | .not6Reg r => .one .not6 (.reg r)
  | .not6MemImm da => .one .not6 (.memImm da)
  | .not6MemReg r => .one .not6 (.memReg r)
  | .nop => .nop
  | .halt => .halt

/-- An instruction is well-formed when its line in the notation is. -/
def Instr.wellFormed (i : Instr) : Bool := i.toSource.wellFormed

end Sys2Proof
end

