-- ==== Sys2Proof/Decode.lean ====
section
/-! DEFINITION. Decode.lean: from bytes to an instruction or a named rejection, total on any bytes, and after it the
encoder, both from the tables of spec/30_encoding.md. The decoder checks in the order of spec/60_exceptions.md R208. -/

namespace Sys2Proof

/-! ### Bit fields and byte order -/

/-- `b[7:4]` (R9). -/
def hiNibble (b : Byte) : Nibble := b.extractLsb' 4 4

/-- `b[3:0]` (R9). -/
def loNibble (b : Byte) : Nibble := b.extractLsb' 0 4

/-- The byte with the given high and low nibbles. -/
def byteOf (hi lo : Nibble) : Byte := hi ++ lo

/-- `zext_64(b)` (R10). -/
def zext64 (b : Byte) : Word := b.setWidth 64

/-- Byte `k` (0 to 7, counted from the lowest address) of a word in memory: `v[63-8k:56-8k]` (R52). -/
def byteAt (v : Word) (k : Nat) : Byte := v.extractLsb' (56 - 8 * k) 8

/-- The eight bytes of a word in address order, big-endian (R52). -/
def bytesOfWord (v : Word) : List Byte :=
  [byteAt v 0, byteAt v 1, byteAt v 2, byteAt v 3, byteAt v 4, byteAt v 5, byteAt v 6, byteAt v 7]

/-- Eight bytes in address order combined big-endian: the first is the most significant (R12, R52). -/
def wordOfBytes (b0 b1 b2 b3 b4 b5 b6 b7 : Byte) : Word :=
  b0 ++ b1 ++ b2 ++ b3 ++ b4 ++ b5 ++ b6 ++ b7

/-! ### The encoding tables -/

/-- `REG_CODE_MAP`, code to register (R21): 7 to 15 select none. -/
def regOfCode (c : Nibble) : Option Reg :=
  match c.toNat with
  | 0 => some .a
  | 1 => some .b
  | 2 => some .c
  | 3 => some .d
  | 4 => some .bp
  | 5 => some .sp
  | 6 => some .pc
  | _ => none

/-- `REG_CODE_MAP`, register to code (R21). -/
def codeOfReg : Reg → Nibble
  | .a => 0
  | .b => 1
  | .c => 2
  | .d => 3
  | .bp => 4
  | .sp => 5
  | .pc => 6

/-- What an opcode byte selects (R71): the instruction, and with it the format (R72). -/
inductive Opcode where
  | nop
  | halt
  | two (op : Op2)
  | one (op : Op1)
deriving DecidableEq, Repr

/-- The opcode map (R71): 0x07 to 0xFF are illegal. -/
def opcodeOf (b : Byte) : Option Opcode :=
  match b.toNat with
  | 0x00 => some .nop
  | 0x01 => some .halt
  | 0x02 => some (.two .mov)
  | 0x03 => some (.two .add)
  | 0x04 => some (.two .sub)
  | 0x05 => some (.one .not)
  | 0x06 => some (.one .not6)
  | _ => none

/-- The opcode map (R71), the other way. -/
def Opcode.byte : Opcode → Byte
  | .nop => 0x00
  | .halt => 0x01
  | .two .mov => 0x02
  | .two .add => 0x03
  | .two .sub => 0x04
  | .one .not => 0x05
  | .one .not6 => 0x06

/-- The operand kinds (R16). -/
inductive Kind where
  | reg
  | imm
  | memImm
  | memReg
deriving DecidableEq, Repr

/-- The register bit of an operand kind (R75): the operand is supplied by the register its code names. -/
def Kind.usesReg : Kind → Bool
  | .reg | .memReg => true
  | .imm | .memImm => false

/-- The memory bit of an operand kind (R75): the operand is a memory location. -/
def Kind.isMemory : Kind → Bool
  | .memImm | .memReg => true
  | .reg | .imm => false

/-- Whether the operand contributes a word field (R80): exactly when no register supplies it. -/
def Kind.hasField : Kind → Bool
  | .imm | .memImm => true
  | .reg | .memReg => false

/-- The seven addressing combinations, under the names of R76. -/
inductive Mode where
  | ir
  | rr
  | miR
  | mrR
  | iMr
  | rMr
  | miMi
deriving DecidableEq, Repr

/-- The source kind of a combination (R76). -/
def Mode.src : Mode → Kind
  | .ir | .iMr => .imm
  | .rr | .rMr => .reg
  | .miR | .miMi => .memImm
  | .mrR => .memReg

/-- The destination kind of a combination (R76). -/
def Mode.dst : Mode → Kind
  | .ir | .rr | .miR | .mrR => .reg
  | .iMr | .rMr => .memReg
  | .miMi => .memImm

/-- `MODE_TABLE` (R76): the recognized mode nibbles; every other is unrecognized (R77). -/
def modeTable (n : Nibble) : Option Mode :=
  match n.toNat with
  | 0x2 => some .ir
  | 0x3 => some .rr
  | 0x6 => some .miR
  | 0x7 => some .mrR
  | 0xA => some .iMr
  | 0xB => some .rMr
  | 0xC => some .miMi
  | _ => none

/-- `MODE_TABLE` (R76), the other way. -/
def Mode.nibble : Mode → Nibble
  | .ir => 0x2
  | .rr => 0x3
  | .miR => 0x6
  | .mrR => 0x7
  | .iMr => 0xA
  | .rMr => 0xB
  | .miMi => 0xC

/-- `CMPL_KIND_TABLE` (R84): the kind a complement's high cmode nibble selects; 0x3 to 0xF select none. -/
def cmplKindTable (k : Nibble) : Option Kind :=
  match k.toNat with
  | 0x0 => some .reg
  | 0x1 => some .memImm
  | 0x2 => some .memReg
  | _ => none

/-! ### The decoder -/

/-- Why a byte sequence is not an instruction. The first four are the spec's (R202, R203); `truncated` says that the
bytes end before the byte or word wanted at `offset` does; `ignoredBits` arises under `STRICT_IGNORED_BITS` only (R88). -/
inductive Reject where
  | opcode (byte : Byte)
  | mode (byte : Byte)
  | cmode (byte : Byte)
  | register (code : Nibble)
  | truncated (offset : Nat) (width : Width)
  | ignoredBits
deriving DecidableEq, Repr

/-- A used register code (R79, R83). -/
def takeReg (code : Nibble) : Except Reject Reg :=
  match regOfCode code with
  | some r => .ok r
  | none => .error (.register code)

/-- `FetchWord` on a list of bytes (R12): a word field that stands `offset` bytes into the instruction, and the rest. -/
def takeWord (offset : Nat) : List Byte → Except Reject (Word × List Byte)
  | b0 :: b1 :: b2 :: b3 :: b4 :: b5 :: b6 :: b7 :: rest => .ok (wordOfBytes b0 b1 b2 b3 b4 b5 b6 b7, rest)
  | _ => .error (.truncated offset .word)

def instrIR (op : Op2) (imm : Word) (rd : Reg) : Instr :=
  match op with
  | .mov => .movIR imm rd
  | .add => .addIR imm rd
  | .sub => .subIR imm rd

def instrRR (op : Op2) (rs rd : Reg) : Instr :=
  match op with
  | .mov => .movRR rs rd
  | .add => .addRR rs rd
  | .sub => .subRR rs rd

def instrMiR (op : Op2) (sa : Word) (rd : Reg) : Instr :=
  match op with
  | .mov => .movMiR sa rd
  | .add => .addMiR sa rd
  | .sub => .subMiR sa rd

def instrMrR (op : Op2) (rs rd : Reg) : Instr :=
  match op with
  | .mov => .movMrR rs rd
  | .add => .addMrR rs rd
  | .sub => .subMrR rs rd

def instrIMr (op : Op2) (imm : Word) (rd : Reg) : Instr :=
  match op with
  | .mov => .movIMr imm rd
  | .add => .addIMr imm rd
  | .sub => .subIMr imm rd

def instrRMr (op : Op2) (rs rd : Reg) : Instr :=
  match op with
  | .mov => .movRMr rs rd
  | .add => .addRMr rs rd
  | .sub => .subRMr rs rd

def instrMiMi (op : Op2) (sa da : Word) : Instr :=
  match op with
  | .mov => .movMiMi sa da
  | .add => .addMiMi sa da
  | .sub => .subMiMi sa da

def instrCmplReg (op : Op1) (r : Reg) : Instr :=
  match op with
  | .not => .notReg r
  | .not6 => .not6Reg r

def instrCmplMemImm (op : Op1) (da : Word) : Instr :=
  match op with
  | .not => .notMemImm da
  | .not6 => .not6MemImm da

def instrCmplMemReg (op : Op1) (r : Reg) : Instr :=
  match op with
  | .not => .notMemReg r
  | .not6 => .not6MemReg r

/-- What follows the mode byte of an F2 instruction (R73, R100 `DecodeF2`): the selector byte, whose used nibbles are
checked source first and before any field is fetched (R79, R208), then the fields, source first (R80). -/
def parseF2Operands (op : Op2) (m : Mode) (bytes : List Byte) : Except Reject (Instr × List Byte) :=
  match bytes with
  | [] => .error (.truncated 2 .byte)
  | sel :: bytes =>
    let rs := hiNibble sel
    let rd := loNibble sel
    match m with
    | .ir => do
      let rd ← takeReg rd
      let (imm, rest) ← takeWord 3 bytes
      .ok (instrIR op imm rd, rest)
    | .rr => do
      let rs ← takeReg rs
      let rd ← takeReg rd
      .ok (instrRR op rs rd, bytes)
    | .miR => do
      let rd ← takeReg rd
      let (sa, rest) ← takeWord 3 bytes
      .ok (instrMiR op sa rd, rest)
    | .mrR => do
      let rs ← takeReg rs
      let rd ← takeReg rd
      .ok (instrMrR op rs rd, bytes)
    | .iMr => do
      let rd ← takeReg rd
      let (imm, rest) ← takeWord 3 bytes
      .ok (instrIMr op imm rd, rest)
    | .rMr => do
      let rs ← takeReg rs
      let rd ← takeReg rd
      .ok (instrRMr op rs rd, bytes)
    | .miMi => do
      let (sa, bytes) ← takeWord 3 bytes
      let (da, rest) ← takeWord 11 bytes
      .ok (instrMiMi op sa da, rest)

/-- What follows the opcode of an F2 instruction: the mode byte, of which only the low nibble counts (R74), checked
before the selector is fetched (R78, R208). -/
def parseF2 (op : Op2) : List Byte → Except Reject (Instr × List Byte)
  | [] => .error (.truncated 1 .byte)
  | mode :: bytes =>
    match modeTable (loNibble mode) with
    | none => .error (.mode mode)
    | some m => parseF2Operands op m bytes

/-- What follows the opcode of an F1 instruction (R81 to R84, R100 `DecodeF1`). -/
def parseF1 (op : Op1) : List Byte → Except Reject (Instr × List Byte)
  | [] => .error (.truncated 1 .byte)
  | cm :: bytes =>
    match cmplKindTable (hiNibble cm) with
    | some .reg => do
      let r ← takeReg (loNibble cm)
      .ok (instrCmplReg op r, bytes)
    | some .memImm => do
      let (da, rest) ← takeWord 2 bytes
      .ok (instrCmplMemImm op da, rest)
    | some .memReg => do
      let r ← takeReg (loNibble cm)
      .ok (instrCmplMemReg op r, bytes)
    | some .imm | none => .error (.cmode cm)

/-- The instruction at the head of a byte sequence and the bytes after it, whatever the ignored bits hold (R100). -/
def parse : List Byte → Except Reject (Instr × List Byte)
  | [] => .error (.truncated 0 .byte)
  | op :: bytes =>
    match opcodeOf op with
    | none => .error (.opcode op)
    | some .nop => .ok (.nop, bytes)
    | some .halt => .ok (.halt, bytes)
    | some (.two o) => parseF2 o bytes
    | some (.one o) => parseF1 o bytes

/-- Whether an F2 instruction's bytes after the opcode hold a non-zero ignored bit (R88): in `mode[7:4]`, or in a
selector nibble whose operand no register supplies. -/
def ignoredBitsF2 : List Byte → Bool
  | mode :: sel :: _ =>
    hiNibble mode != 0 ||
      match modeTable (loNibble mode) with
      | none => false
      | some m => (!m.src.usesReg && hiNibble sel != 0) || (!m.dst.usesReg && loNibble sel != 0)
  | _ => false

/-- Whether an F1 instruction's bytes after the opcode hold a non-zero ignored bit (R88): `cmode[3:0]` of the kind
MemImm. -/
def ignoredBitsF1 : List Byte → Bool
  | cm :: _ => cmplKindTable (hiNibble cm) == some .memImm && loNibble cm != 0
  | _ => false

/-- Whether the instruction at the head of a byte sequence has a non-zero ignored bit (R88). -/
def hasIgnoredBits : List Byte → Bool
  | [] => false
  | op :: bytes =>
    match opcodeOf op with
    | some (.two _) => ignoredBitsF2 bytes
    | some (.one _) => ignoredBitsF1 bytes
    | some .nop | some .halt | none => false

/-- The decoder with `STRICT_IGNORED_BITS` as its argument (R88): true refuses an instruction with a non-zero ignored
bit, which has no meaning then. DESIGN CHOICE (log entry 14): with it true, bytes that are rejected anyway (an unrecognized
mode, a used register code of 7 to 15, a field cut short) keep that rejection, ignored bits or not; the spec does not say
whether the fault or the refusal wins. -/
def decodeWith (strict : Bool) (bytes : List Byte) : Except Reject (Instr × List Byte) :=
  match parse bytes with
  | .error e => .error e
  | .ok (i, rest) => if strict && hasIgnoredBits bytes then .error .ignoredBits else .ok (i, rest)

/-- THE DECODER: the instruction at the head of a byte sequence and the bytes after it. -/
def decode (bytes : List Byte) : Except Reject (Instr × List Byte) := decodeWith Config.strictIgnoredBits bytes

/-! ### Lengths -/

/-- The length of an instruction in bytes (R86). -/
def Instr.length : Instr → Nat
  | .nop | .halt => 1
  | .notReg _ | .notMemReg _ | .not6Reg _ | .not6MemReg _ => 2
  | .notMemImm _ | .not6MemImm _ => 10
  | .movRR _ _ | .movMrR _ _ | .movRMr _ _ => 3
  | .addRR _ _ | .addMrR _ _ | .addRMr _ _ => 3
  | .subRR _ _ | .subMrR _ _ | .subRMr _ _ => 3
  | .movIR _ _ | .movMiR _ _ | .movIMr _ _ => 11
  | .addIR _ _ | .addMiR _ _ | .addIMr _ _ => 11
  | .subIR _ _ | .subMiR _ _ | .subIMr _ _ => 11
  | .movMiMi _ _ | .addMiMi _ _ | .subMiMi _ _ => 19

/-- The longest instruction (R8, R86). -/
def maxLength : Nat := 19

/-- The length a decoder knows after an opcode and the byte that follows it (R85). -/
def lengthFrom (op next : Byte) : Option Nat :=
  match opcodeOf op with
  | none => none
  | some .nop | some .halt => some 1
  | some (.two _) =>
    (modeTable (loNibble next)).map fun m => 3 + 8 * (m.src.hasField.toNat + m.dst.hasField.toNat)
  | some (.one _) => (cmplKindTable (hiNibble next)).map fun k => 2 + 8 * k.hasField.toNat

/-! ### The encoder -/

/-- An F2 instruction's bytes (R73, R89): a zero high mode nibble, `rs` and `rd` (zero where unused), the fields. -/
def encodeF2 (op : Op2) (m : Mode) (rs rd : Nibble) (fields : List Byte) : List Byte :=
  (Opcode.two op).byte :: byteOf 0 m.nibble :: byteOf rs rd :: fields

/-- An F1 instruction's bytes (R81, R89): the kind, `r` (zero for MemImm), the field. -/
def encodeF1 (op : Op1) (kind r : Nibble) (field : List Byte) : List Byte :=
  (Opcode.one op).byte :: byteOf kind r :: field

/-- THE ENCODER (R89). -/
def encode : Instr → List Byte
  | .movIR imm rd => encodeF2 .mov .ir 0 (codeOfReg rd) (bytesOfWord imm)
  | .movRR rs rd => encodeF2 .mov .rr (codeOfReg rs) (codeOfReg rd) []
  | .movMiR sa rd => encodeF2 .mov .miR 0 (codeOfReg rd) (bytesOfWord sa)
  | .movMrR rs rd => encodeF2 .mov .mrR (codeOfReg rs) (codeOfReg rd) []
  | .movIMr imm rd => encodeF2 .mov .iMr 0 (codeOfReg rd) (bytesOfWord imm)
  | .movRMr rs rd => encodeF2 .mov .rMr (codeOfReg rs) (codeOfReg rd) []
  | .movMiMi sa da => encodeF2 .mov .miMi 0 0 (bytesOfWord sa ++ bytesOfWord da)
  | .addIR imm rd => encodeF2 .add .ir 0 (codeOfReg rd) (bytesOfWord imm)
  | .addRR rs rd => encodeF2 .add .rr (codeOfReg rs) (codeOfReg rd) []
  | .addMiR sa rd => encodeF2 .add .miR 0 (codeOfReg rd) (bytesOfWord sa)
  | .addMrR rs rd => encodeF2 .add .mrR (codeOfReg rs) (codeOfReg rd) []
  | .addIMr imm rd => encodeF2 .add .iMr 0 (codeOfReg rd) (bytesOfWord imm)
  | .addRMr rs rd => encodeF2 .add .rMr (codeOfReg rs) (codeOfReg rd) []
  | .addMiMi sa da => encodeF2 .add .miMi 0 0 (bytesOfWord sa ++ bytesOfWord da)
  | .subIR imm rd => encodeF2 .sub .ir 0 (codeOfReg rd) (bytesOfWord imm)
  | .subRR rs rd => encodeF2 .sub .rr (codeOfReg rs) (codeOfReg rd) []
  | .subMiR sa rd => encodeF2 .sub .miR 0 (codeOfReg rd) (bytesOfWord sa)
  | .subMrR rs rd => encodeF2 .sub .mrR (codeOfReg rs) (codeOfReg rd) []
  | .subIMr imm rd => encodeF2 .sub .iMr 0 (codeOfReg rd) (bytesOfWord imm)
  | .subRMr rs rd => encodeF2 .sub .rMr (codeOfReg rs) (codeOfReg rd) []
  | .subMiMi sa da => encodeF2 .sub .miMi 0 0 (bytesOfWord sa ++ bytesOfWord da)
  | .notReg r => encodeF1 .not 0x0 (codeOfReg r) []
  | .notMemImm da => encodeF1 .not 0x1 0 (bytesOfWord da)
  | .notMemReg r => encodeF1 .not 0x2 (codeOfReg r) []
  | .not6Reg r => encodeF1 .not6 0x0 (codeOfReg r) []
  | .not6MemImm da => encodeF1 .not6 0x1 0 (bytesOfWord da)
  | .not6MemReg r => encodeF1 .not6 0x2 (codeOfReg r) []
  | .nop => [Opcode.nop.byte]
  | .halt => [Opcode.halt.byte]

/-- The instruction a line of the notation of R14 stands for; none for an operand pair outside R76. -/
def Source.instr? : Source → Option Instr
  | .two op (.imm v) (.reg rd) => some (instrIR op v rd)
  | .two op (.reg rs) (.reg rd) => some (instrRR op rs rd)
  | .two op (.memImm sa) (.reg rd) => some (instrMiR op sa rd)
  | .two op (.memReg rs) (.reg rd) => some (instrMrR op rs rd)
  | .two op (.imm v) (.memReg rd) => some (instrIMr op v rd)
  | .two op (.reg rs) (.memReg rd) => some (instrRMr op rs rd)
  | .two op (.memImm sa) (.memImm da) => some (instrMiMi op sa da)
  | .two _ _ _ => none
  | .one op (.reg r) => some (instrCmplReg op r)
  | .one op (.memImm da) => some (instrCmplMemImm op da)
  | .one op (.memReg r) => some (instrCmplMemReg op r)
  | .one _ (.imm _) => none
  | .nop => some .nop
  | .halt => some .halt

/-- The encoder on the notation of R14: it refuses an operand pair outside R76 (R89). -/
def encodeSource (line : Source) : Option (List Byte) := line.instr?.map encode

/-! ### The opcode table's numbering -/

/-- The bytes of an instruction whose bits are `w` as spec/opcode_table.json numbers them (log entry 5): a row of 8 bits
is the opcode byte alone; in a longer row bits 15..8 are the first byte and bits 7..0 the second, as the table's `match`
and `fixed` have them, and byte k from the third on is bits 8k+7..8k. Bits from `nbits` up are 0. -/
def tableBytes (nbits w : Nat) : List Byte :=
  let v := w % 2 ^ nbits
  if nbits ≤ 8 then BitVec.ofNat 8 v :: List.replicate (maxLength - 1) 0
  else
    BitVec.ofNat 8 (v / 2 ^ 8) :: BitVec.ofNat 8 v ::
      (List.range (maxLength - 2)).map fun k => BitVec.ofNat 8 (v / 2 ^ (8 * (k + 2)))

/-- The instruction the decoder reads from the bits `w` of an opcode-table row. -/
def decodeTableWord (nbits w : Nat) : Option Instr :=
  match decode (tableBytes nbits w) with
  | .ok (i, _) => some i
  | .error _ => none

end Sys2Proof
end

