-- ==== Sys2Proof/Machine/State.lean ====
section
/-! DEFINITION. Machine/State.lean: the machine's state as plain data (spec/10_state.md R33 to R36), the reasons a step
can stop, and the state at creation. -/

namespace Sys2Proof.Machine

/-- What a DecodeFault says was not recognized (R202). -/
inductive DecodeKind where
  | opcode
  | mode
  | cmode
deriving DecidableEq, Repr

/-- What an access was for (R55, R204). -/
inductive Access where
  | fetch
  | read
  | write
deriving DecidableEq, Repr

/-- The fault record `(kind, info, at)` of R206: the constructor is the kind, `start` is `at`, the address of the
faulting instruction's opcode byte, and the rest is the info. A fault ends execution for good (R201, R209). -/
inductive Fault where
  /-- DecodeFault (R202): raised by the step's decode on an opcode, mode nibble or complement kind that is not
  recognized. Safe: the spec's own fault. -/
  | decodeFault (kind : DecodeKind) (byte : Byte) (start : Word)
  /-- RegisterFault (R203): raised by the step's decode on a used register code of 7 to 15. Safe: the spec's own fault. -/
  | registerFault (code : Nibble) (start : Word)
  /-- MemoryFault (R204): raised by a fetch, an operand read or an operand write that is not in range (R55). Safe: the
  spec's own fault, which stops where the original does something undefined (D13). -/
  | memoryFault (addr : Word) (width : Width) (access : Access) (start : Word)
  /-- A stuck state: raised in MemoryFault's place when `BOUNDS_CHECK` is off, where the spec gives an access out of range
  no step and no value (R55, I3). Not reached at the default. Safe: it stops. -/
  | stuckAccess (addr : Word) (width : Width) (access : Access) (start : Word)
deriving DecidableEq, Repr

/-- Why a step has no meaning. -/
inductive Refusal where
  /-- Raised by an arm of `exec` whose instruction has no meaning yet (none is left). Safe: it stops. -/
  | notModelled (mnemonic : String)
  /-- Raised by the step's decode when `STRICT_IGNORED_BITS` is true and the instruction has a non-zero ignored bit
  (R88, I10). Not reached at the default. Safe: it stops. -/
  | ignoredBits
deriving DecidableEq, Repr

/-- The run status (R35). Halted is none: it is a Running core whose Halt bit is set (C6). -/
inductive RunStatus where
  | running
  | faulted (record : Fault)
deriving DecidableEq, Repr

/-- Memory (R34, R50): the bytes that differ from what unwritten memory reads as, by strictly rising address. -/
abbrev Memory := List Host.Cell

/-- The whole state of a core instance (R33, R35). -/
structure State where
  /-- Accumulator, code 0. -/
  a : Word
  /-- Base, code 1. -/
  b : Word
  /-- Counter, code 2. -/
  c : Word
  /-- Data, code 3. -/
  d : Word
  /-- Frame-base pointer, code 4. -/
  bp : Word
  /-- Stack pointer, code 5. -/
  sp : Word
  /-- Program counter, code 6: at the start of a step, the address of the opcode byte (R25). -/
  pc : Word
  /-- The flag register (R29). -/
  flags : BitVec 8
  /-- The memory (R34). -/
  mem : Memory
  /-- Running or Faulted (R35). -/
  status : RunStatus
  /-- Whether the one `Load` may still be made (R232); no program can see it. -/
  loadOpen : Bool
  /-- THE MODEL'S OWN (log entry 3): how many free values have been drawn. -/
  free : Nat
deriving DecidableEq, Repr

/-- A core instance at creation, its only reset (R36, R230), with the launch inputs `INIT_REGS` as its argument. -/
def State.create (init : Config.InitRegs) : State where
  a := init.a
  b := init.b
  c := init.c
  d := init.d
  bp := init.bp
  sp := init.sp
  pc := 0
  flags := 0
  mem := []
  status := .running
  loadOpen := true
  free := 0

/-- The machine right after reset: creation with the launch inputs of log entry 1. -/
def State.reset : State := State.create Config.initRegs

end Sys2Proof.Machine
end

