-- ==== Sys2Proof/Machine/Flags.lean ====
section
/-! DEFINITION. Machine/Flags.lean: the flag register (spec/10_state.md R29 to R32). The core has one flag computation,
setting Halt; the host may test and write any of the eight bits (R38). -/

namespace Sys2Proof.Machine

/-- The five named bits (R29). -/
inductive Flag where
  | halt
  | overflow
  | negative
  | zero
  | carry
deriving DecidableEq, Repr

/-- `FLAG_BITS` (R8, R29; D3): the bit of the flag register that a named flag is. -/
def Flag.bit : Flag → Fin 8
  | .halt => 0
  | .overflow => 1
  | .negative => 2
  | .zero => 3
  | .carry => 4

/-- Bit `n` of a flag byte. -/
def testBit (flags : BitVec 8) (n : Fin 8) : Bool := flags.getLsbD n

/-- The flag byte with bit `n` set or cleared and every other bit as it was. -/
def writeBit (flags : BitVec 8) (n : Fin 8) (v : Bool) : BitVec 8 :=
  if v then flags ||| BitVec.twoPow 8 n else flags &&& ~~~BitVec.twoPow 8 n

/-- `flags.H` and its fellows (R11). -/
def State.flag (s : State) (f : Flag) : Bool := testBit s.flags f.bit

/-- `flags.H <- 1` (R191). -/
def State.setHalt (s : State) : State := { s with flags := writeBit s.flags Flag.halt.bit true }

end Sys2Proof.Machine
end

