-- ==== Sys2Proof/Machine/Ops.lean ====
section
/-! DEFINITION. Machine/Ops.lean: the named operations over registers and memory (spec/00_scope.md R11, R12;
spec/20_memory.md), fetching an instruction's bytes, and raising a fault (spec/60_exceptions.md R201, R206, R207). -/

namespace Sys2Proof.Machine

/-! ### Registers -/

/-- `x[r]` (R11): all seven registers are readable (R22) and none is hardwired (R20). -/
def State.reg (s : State) (r : Reg) : Word :=
  match r with
  | .a => s.a
  | .b => s.b
  | .c => s.c
  | .d => s.d
  | .bp => s.bp
  | .sp => s.sp
  | .pc => s.pc

/-- `x[r] <- v` (R11): all seven registers are writable (R22). -/
def State.setReg (s : State) (r : Reg) (v : Word) : State :=
  match r with
  | .a => { s with a := v }
  | .b => { s with b := v }
  | .c => { s with c := v }
  | .d => { s with d := v }
  | .bp => { s with bp := v }
  | .sp => { s with sp := v }
  | .pc => { s with pc := v }

/-- PC advanced past `n` bytes, modulo 2^64 (R25, R28). -/
def State.advance (s : State) (n : Nat) : State := { s with pc := s.pc + BitVec.ofNat 64 n }

/-! ### Memory -/

/-- The byte at an address: the listed one, else what unwritten memory reads as (R61). -/
def Memory.read (m : Memory) (addr : Nat) : Byte :=
  match m with
  | [] => Config.unlistedByte
  | (k, v) :: rest => if k = addr then v else Memory.read rest addr

/-- The byte `v` put in front of the listing of higher addresses, unless unwritten memory reads so anyway. -/
def Memory.put (addr : Nat) (v : Byte) (rest : Memory) : Memory :=
  if v = Config.unlistedByte then rest else (addr, v) :: rest

/-- The memory with byte `v` at an address and every other byte as it was, in the canonical form. -/
def Memory.write (m : Memory) (addr : Nat) (v : Byte) : Memory :=
  match m with
  | [] => Memory.put addr v []
  | (k, u) :: rest =>
    if addr < k then Memory.put addr v ((k, u) :: rest)
    else if addr = k then Memory.put addr v rest
    else (k, u) :: Memory.write rest addr v

/-- Bytes written at consecutive addresses, in order. -/
def Memory.writeList (m : Memory) (addr : Nat) : List Byte → Memory
  | [] => m
  | v :: vs => Memory.writeList (m.write addr v) (addr + 1) vs

/-- The 8-byte big-endian word at an address (R12, R52). -/
def Memory.readWord (m : Memory) (addr : Nat) : Word :=
  wordOfBytes (m.read addr) (m.read (addr + 1)) (m.read (addr + 2)) (m.read (addr + 3))
    (m.read (addr + 4)) (m.read (addr + 5)) (m.read (addr + 6)) (m.read (addr + 7))

/-- The memory with the 8 bytes of a word at an address, big-endian (R12, R52). -/
def Memory.writeWord (m : Memory) (addr : Nat) (v : Word) : Memory := m.writeList addr (bytesOfWord v)

/-- The canonical form: addresses strictly rising, no byte listed that unwritten memory reads as. -/
abbrev Memory.wf (m : Memory) : Prop :=
  m.Pairwise (fun x y => x.1 < y.1) ∧ ∀ x ∈ m, x.2 ≠ Config.unlistedByte

/-- No byte stands outside the memory (R34, R50). -/
abbrev Memory.bounded (m : Memory) : Prop := ∀ x ∈ m, x.1 < Config.memCapacity

/-! ### Accesses -/

/-- How many bytes an access of a width touches. -/
def bytesOf : Width → Nat
  | .byte => 1
  | .word => 8

/-- The bounds check on an access, on unbounded naturals (R55): no wrap, no alignment (R56). -/
abbrev InRange (addr : Word) (w : Width) : Prop := addr.toNat + bytesOf w ≤ Config.memCapacity

/-- What an access out of range raises in the instruction at `start` (R55): MemoryFault, or no step at all when the
parameter `BOUNDS_CHECK` is off (I3). -/
def accessFault (boundsCheck : Bool) (addr : Word) (w : Width) (access : Access) (start : Word) : Fault :=
  if boundsCheck then .memoryFault addr w access start else .stuckAccess addr w access start

/-- `MemRead(addr, 1)` (R12) by the instruction at `start`. -/
def State.loadByte (s : State) (start : Word) (access : Access) (addr : Word) : Except Fault Byte :=
  if InRange addr .byte then .ok (s.mem.read addr.toNat)
  else .error (accessFault Config.boundsCheck addr .byte access start)

/-- `MemRead(addr, 8)` (R12) by the instruction at `start`. -/
def State.loadWord (s : State) (start : Word) (access : Access) (addr : Word) : Except Fault Word :=
  if InRange addr .word then .ok (s.mem.readWord addr.toNat)
  else .error (accessFault Config.boundsCheck addr .word access start)

/-- An operand read of a given width as a word: the 8-byte word, or one byte zero-extended (R104, R105). -/
def State.load (s : State) (start : Word) (w : Width) (addr : Word) : Except Fault Word :=
  match w with
  | .byte => (s.loadByte start .read addr).map zext64
  | .word => s.loadWord start .read addr

/-- `MemWrite(addr, 1, v)` (R12): the check comes before any byte changes (R55). -/
def State.storeByte (s : State) (start addr : Word) (v : Byte) : Except Fault State :=
  if InRange addr .byte then .ok { s with mem := s.mem.write addr.toNat v }
  else .error (accessFault Config.boundsCheck addr .byte .write start)

/-- `MemWrite(addr, 8, v)` (R12): the whole range is checked before any byte changes (R55). -/
def State.storeWord (s : State) (start addr : Word) (v : Word) : Except Fault State :=
  if InRange addr .word then .ok { s with mem := s.mem.writeWord addr.toNat v }
  else .error (accessFault Config.boundsCheck addr .word .write start)

/-- A step's outcome from the result of its operation. -/
def outcomeOf : Except Fault State → Host.Outcome State Fault Refusal
  | .ok s => .next s
  | .error f => .fault f

/-! ### Fetching an instruction -/

/-- The bytes at PC and up, as many as the longest instruction has or as there are before the memory ends. -/
def fetchWindow (s : State) : List Byte :=
  (List.range (min maxLength (Config.memCapacity - s.pc.toNat))).map fun k => s.mem.read (s.pc.toNat + k)

/-- What a rejection of the bytes at `start` is as a step's outcome (R202 to R204, R206): bytes that end too soon are a
fetch out of range. -/
def rejectOutcome (start : Word) : Reject → Host.Outcome State Fault Refusal
  | .opcode b => .fault (.decodeFault .opcode b start)
  | .mode b => .fault (.decodeFault .mode b start)
  | .cmode b => .fault (.decodeFault .cmode b start)
  | .register code => .fault (.registerFault code start)
  | .truncated offset w =>
    .fault (accessFault Config.boundsCheck (start + BitVec.ofNat 64 offset) w .fetch start)
  | .ignoredBits => .refused .ignoredBits

/-- A step closes the host's one chance to load (R232). -/
def State.closeLoad (s : State) : State := { s with loadOpen := false }

/-! ### Taking a fault -/

/-- `at` of a fault record (R206). -/
def Fault.start : Fault → Word
  | .decodeFault _ _ start => start
  | .registerFault _ start => start
  | .memoryFault _ _ _ start => start
  | .stuckAccess _ _ _ start => start

/-- TAKING A FAULT, the same for every kind: the core becomes Faulted with the record (R201, R206), every register but PC,
every flag and every byte stays as it was, and PC is an arbitrary word (R207), the free value of log entry 3. Nothing is
saved, no handler is entered, and there is no return (R209, R211). -/
def State.raiseFault (s : State) (record : Fault) : State :=
  { s with pc := Config.pcAfterFault s.free, status := .faulted record, free := s.free + 1 }

end Sys2Proof.Machine
end

