-- ==== Sys2Proof/Machine/Operands.lean ====
section
/-! DEFINITION. Machine/Operands.lean: the operand multiplex, the ALU and the write-back
(spec/40_operand_mux.md R101 to R113; spec/43_complement.md R180). -/

namespace Sys2Proof.Machine

/-- A destination operand, or the operand of a complement (R17): never an immediate. -/
inductive Dest where
  | reg (r : Reg)
  | memImm (addr : Word)
  | memReg (r : Reg)
deriving DecidableEq, Repr

/-- A resolved destination (R107): `RegLoc` or `MemLoc`. -/
inductive Loc where
  | reg (r : Reg)
  | mem (addr : Word)
deriving DecidableEq, Repr

/-- The bytes of an instruction that a source operand's field takes (R80). -/
def sourceFieldBytes : Operand → Nat
  | .imm _ | .memImm _ => 8
  | .reg _ | .memReg _ => 0

/-- The bytes of an instruction that a destination operand's field takes (R80). -/
def destFieldBytes : Dest → Nat
  | .memImm _ => 8
  | .reg _ | .memReg _ => 0

/-- `ResolveSource` (R102): the source's value, in the instruction at `start`. -/
def resolveSource (start : Word) (src : Operand) (s : State) : Except Fault Word :=
  match src with
  | .reg r => .ok (s.reg r)
  | .imm v => .ok v
  | .memImm addr => s.load start Config.srcWidthMemImm addr
  | .memReg r => s.load start Config.srcWidthMemReg (s.reg r)

/-- `ResolveDest` (R107). -/
def resolveDest (dst : Dest) (s : State) : Loc :=
  match dst with
  | .reg r => .reg r
  | .memImm addr => .mem addr
  | .memReg r => .mem (s.reg r)

/-- `ReadDest` (R108). -/
def readDest (start : Word) (loc : Loc) (s : State) : Except Fault Word :=
  match loc with
  | .reg r => .ok (s.reg r)
  | .mem addr => s.load start Config.arithMemDestWidth addr

/-- `WriteDest` (R109). -/
def writeDest (start : Word) (loc : Loc) (v : Word) (s : State) : Except Fault State :=
  match loc with
  | .reg r => .ok (s.setReg r v)
  | .mem addr => s.storeWord start addr v

/-- The ALU's result for a two-operand instruction (R112, R170): MOV takes the source value and does not read its
destination (R108); ADD and SUB read it, and the destination is the minuend (R160). -/
def aluResult (op : Op2) (start : Word) (sv : Word) (loc : Loc) (s : State) : Except Fault Word :=
  match op with
  | .mov => .ok sv
  | .add => (readDest start loc s).map fun dv => dv + sv
  | .sub => (readDest start loc s).map fun dv => dv - sv

/-- `Execute2` (R110, R112) on a state whose PC is already past the instruction (R101): source read, destination
resolved, destination read, ALU, write. No flag is read or written (R114). -/
def operate2 (op : Op2) (start : Word) (src : Operand) (dst : Dest) (s : State) : Except Fault State :=
  match resolveSource start src s with
  | .error f => .error f
  | .ok sv =>
    match aluResult op start sv (resolveDest dst s) s with
    | .error f => .error f
    | .ok v => writeDest start (resolveDest dst s) v s

/-- `Execute1` (R180) on a state whose PC is already past the instruction (R101): the 64-bit NOT of a register, or the
8-bit NOT of one byte of memory. -/
def operate1 (start : Word) (operand : Dest) (s : State) : Except Fault State :=
  match resolveDest operand s with
  | .reg r => .ok (s.setReg r (~~~s.reg r))
  | .mem addr =>
    match s.loadByte start .read addr with
    | .error f => .error f
    | .ok v => s.storeByte start addr (~~~v)

/-- A two-operand instruction at PC (R100, R101): PC passes the opcode, mode and selector bytes and the fields (R73), and
then the operation runs. -/
def execute2 (op : Op2) (src : Operand) (dst : Dest) (s : State) : Host.Outcome State Fault Refusal :=
  outcomeOf (operate2 op s.pc src dst (s.advance (3 + sourceFieldBytes src + destFieldBytes dst)))

/-- A one-operand instruction at PC (R100, R101): PC passes the opcode and cmode bytes and the field (R81), and then the
operation runs. -/
def execute1 (operand : Dest) (s : State) : Host.Outcome State Fault Refusal :=
  outcomeOf (operate1 s.pc operand (s.advance (2 + destFieldBytes operand)))

end Sys2Proof.Machine
end

