-- ==== Sys2Proof/Machine/AddSub.lean ====
section
/-! DEFINITION. Machine/AddSub.lean: ADD, opcode 0x03, and SUB, opcode 0x04, in their seven addressing combinations
(spec/42_add_sub.md). All arithmetic is modulo 2^64 (R170). -/

namespace Sys2Proof.Machine

/-- `x[rd] <- x[rd] + imm` (R151). -/
def execAddIR (imm : Word) (rd : Reg) (s : State) : Host.Outcome State Fault Refusal :=
  execute2 .add (.imm imm) (.reg rd) s

/-- `x[rd] <- x[rd] + x[rs]` (R152). -/
def execAddRR (rs rd : Reg) (s : State) : Host.Outcome State Fault Refusal :=
  execute2 .add (.reg rs) (.reg rd) s

/-- `x[rd] <- x[rd] + MemRead(sa, 8)` (R153). -/
def execAddMiR (sa : Word) (rd : Reg) (s : State) : Host.Outcome State Fault Refusal :=
  execute2 .add (.memImm sa) (.reg rd) s

/-- `x[rd] <- x[rd] + zext_64(MemRead(x[rs], 1))` (R154). -/
def execAddMrR (rs rd : Reg) (s : State) : Host.Outcome State Fault Refusal :=
  execute2 .add (.memReg rs) (.reg rd) s

/-- `a <- x[rd]; MemWrite(a, 8, MemRead(a, 8) + imm)` (R155). -/
def execAddIMr (imm : Word) (rd : Reg) (s : State) : Host.Outcome State Fault Refusal :=
  execute2 .add (.imm imm) (.memReg rd) s

/-- `a <- x[rd]; MemWrite(a, 8, MemRead(a, 8) + x[rs])` (R156). -/
def execAddRMr (rs rd : Reg) (s : State) : Host.Outcome State Fault Refusal :=
  execute2 .add (.reg rs) (.memReg rd) s

/-- `s <- MemRead(sa, 8); d <- MemRead(da, 8); MemWrite(da, 8, d + s)` (R157). -/
def execAddMiMi (sa da : Word) (s : State) : Host.Outcome State Fault Refusal :=
  execute2 .add (.memImm sa) (.memImm da) s

/-- `x[rd] <- x[rd] - imm` (R161). -/
def execSubIR (imm : Word) (rd : Reg) (s : State) : Host.Outcome State Fault Refusal :=
  execute2 .sub (.imm imm) (.reg rd) s

/-- `x[rd] <- x[rd] - x[rs]` (R162). -/
def execSubRR (rs rd : Reg) (s : State) : Host.Outcome State Fault Refusal :=
  execute2 .sub (.reg rs) (.reg rd) s

/-- `x[rd] <- x[rd] - MemRead(sa, 8)` (R163). -/
def execSubMiR (sa : Word) (rd : Reg) (s : State) : Host.Outcome State Fault Refusal :=
  execute2 .sub (.memImm sa) (.reg rd) s

/-- `x[rd] <- x[rd] - zext_64(MemRead(x[rs], 1))` (R164). -/
def execSubMrR (rs rd : Reg) (s : State) : Host.Outcome State Fault Refusal :=
  execute2 .sub (.memReg rs) (.reg rd) s

/-- `a <- x[rd]; MemWrite(a, 8, MemRead(a, 8) - imm)` (R165). -/
def execSubIMr (imm : Word) (rd : Reg) (s : State) : Host.Outcome State Fault Refusal :=
  execute2 .sub (.imm imm) (.memReg rd) s

/-- `a <- x[rd]; MemWrite(a, 8, MemRead(a, 8) - x[rs])` (R166). -/
def execSubRMr (rs rd : Reg) (s : State) : Host.Outcome State Fault Refusal :=
  execute2 .sub (.reg rs) (.memReg rd) s

/-- `s <- MemRead(sa, 8); d <- MemRead(da, 8); MemWrite(da, 8, d - s)` (R167). -/
def execSubMiMi (sa da : Word) (s : State) : Host.Outcome State Fault Refusal :=
  execute2 .sub (.memImm sa) (.memImm da) s

end Sys2Proof.Machine
end

