-- ==== Sys2Proof/Machine/Complement.lean ====
section
/-! DEFINITION. Machine/Complement.lean: NOT, opcode 0x05, and NOT6, opcode 0x06, in their three kinds
(spec/43_complement.md). The two opcodes have one effect (R182). -/

namespace Sys2Proof.Machine

/-- `x[r] <- ~x[r]` (R180, R181). -/
def execNotReg (r : Reg) (s : State) : Host.Outcome State Fault Refusal :=
  execute1 (.reg r) s

/-- `b <- MemRead(da, 1); MemWrite(da, 1, ~b)` (R180, R181). -/
def execNotMemImm (da : Word) (s : State) : Host.Outcome State Fault Refusal :=
  execute1 (.memImm da) s

/-- `a <- x[r]; b <- MemRead(a, 1); MemWrite(a, 1, ~b)` (R180, R181). -/
def execNotMemReg (r : Reg) (s : State) : Host.Outcome State Fault Refusal :=
  execute1 (.memReg r) s

/-- `x[r] <- ~x[r]` (R180, R182). -/
def execNot6Reg (r : Reg) (s : State) : Host.Outcome State Fault Refusal :=
  execute1 (.reg r) s

/-- `b <- MemRead(da, 1); MemWrite(da, 1, ~b)` (R180, R182). -/
def execNot6MemImm (da : Word) (s : State) : Host.Outcome State Fault Refusal :=
  execute1 (.memImm da) s

/-- `a <- x[r]; b <- MemRead(a, 1); MemWrite(a, 1, ~b)` (R180, R182). -/
def execNot6MemReg (r : Reg) (s : State) : Host.Outcome State Fault Refusal :=
  execute1 (.memReg r) s

end Sys2Proof.Machine
end

