-- ==== Sys2Proof/Machine/Control.lean ====
section
/-! DEFINITION. Machine/Control.lean: NOP, opcode 0x00, and HALT, opcode 0x01 (spec/44_control.md). -/

namespace Sys2Proof.Machine

/-- Nothing beyond the fetch (R190). -/
def execNop (s : State) : Host.Outcome State Fault Refusal := .next (s.advance 1)

/-- `flags.H <- 1` (R191). The engine does not stop (R30, R40). -/
def execHalt (s : State) : Host.Outcome State Fault Refusal := .next (s.advance 1).setHalt

end Sys2Proof.Machine
end

