-- ==== Sys2Proof/Machine/Move.lean ====
section
/-! DEFINITION. Machine/Move.lean: MOV, opcode 0x02, in its seven addressing combinations (spec/41_move.md). -/

namespace Sys2Proof.Machine

/-- `x[rd] <- imm` (R130). -/
def execMovIR (imm : Word) (rd : Reg) (s : State) : Host.Outcome State Fault Refusal :=
  execute2 .mov (.imm imm) (.reg rd) s

/-- `x[rd] <- x[rs]` (R131). -/
def execMovRR (rs rd : Reg) (s : State) : Host.Outcome State Fault Refusal :=
  execute2 .mov (.reg rs) (.reg rd) s

/-- `x[rd] <- MemRead(sa, 8)` (R132). -/
def execMovMiR (sa : Word) (rd : Reg) (s : State) : Host.Outcome State Fault Refusal :=
  execute2 .mov (.memImm sa) (.reg rd) s

/-- `x[rd] <- zext_64(MemRead(x[rs], 1))` (R133). -/
def execMovMrR (rs rd : Reg) (s : State) : Host.Outcome State Fault Refusal :=
  execute2 .mov (.memReg rs) (.reg rd) s

/-- `MemWrite(x[rd], 8, imm)` (R134). -/
def execMovIMr (imm : Word) (rd : Reg) (s : State) : Host.Outcome State Fault Refusal :=
  execute2 .mov (.imm imm) (.memReg rd) s

/-- `MemWrite(x[rd], 8, x[rs])` (R135). -/
def execMovRMr (rs rd : Reg) (s : State) : Host.Outcome State Fault Refusal :=
  execute2 .mov (.reg rs) (.memReg rd) s

/-- `MemWrite(da, 8, MemRead(sa, 8))` (R136). -/
def execMovMiMi (sa da : Word) (s : State) : Host.Outcome State Fault Refusal :=
  execute2 .mov (.memImm sa) (.memImm da) s

end Sys2Proof.Machine
end

