-- ==== Sys2Proof/Machine/Dispatch.lean ====
section
/-! DEFINITION. Machine/Dispatch.lean: each instruction to its meaning. -/

namespace Sys2Proof.Machine

/-- One instruction, run where PC holds the address of its opcode byte. -/
def exec (i : Instr) (s : State) : Host.Outcome State Fault Refusal :=
  match i with
  | .movIR imm rd => Sys2Proof.Machine.execMovIR imm rd s
  | .movRR rs rd => Sys2Proof.Machine.execMovRR rs rd s
  | .movMiR sa rd => Sys2Proof.Machine.execMovMiR sa rd s
  | .movMrR rs rd => Sys2Proof.Machine.execMovMrR rs rd s
  | .movIMr imm rd => Sys2Proof.Machine.execMovIMr imm rd s
  | .movRMr rs rd => Sys2Proof.Machine.execMovRMr rs rd s
  | .movMiMi sa da => Sys2Proof.Machine.execMovMiMi sa da s
  | .addIR imm rd => Sys2Proof.Machine.execAddIR imm rd s
  | .addRR rs rd => Sys2Proof.Machine.execAddRR rs rd s
  | .addMiR sa rd => Sys2Proof.Machine.execAddMiR sa rd s
  | .addMrR rs rd => Sys2Proof.Machine.execAddMrR rs rd s
  | .addIMr imm rd => Sys2Proof.Machine.execAddIMr imm rd s
  | .addRMr rs rd => Sys2Proof.Machine.execAddRMr rs rd s
  | .addMiMi sa da => Sys2Proof.Machine.execAddMiMi sa da s
  | .subIR imm rd => Sys2Proof.Machine.execSubIR imm rd s
  | .subRR rs rd => Sys2Proof.Machine.execSubRR rs rd s
  | .subMiR sa rd => Sys2Proof.Machine.execSubMiR sa rd s
  | .subMrR rs rd => Sys2Proof.Machine.execSubMrR rs rd s
  | .subIMr imm rd => Sys2Proof.Machine.execSubIMr imm rd s
  | .subRMr rs rd => Sys2Proof.Machine.execSubRMr rs rd s
  | .subMiMi sa da => Sys2Proof.Machine.execSubMiMi sa da s
  | .notReg r => Sys2Proof.Machine.execNotReg r s
  | .notMemImm da => Sys2Proof.Machine.execNotMemImm da s
  | .notMemReg r => Sys2Proof.Machine.execNotMemReg r s
  | .not6Reg r => Sys2Proof.Machine.execNot6Reg r s
  | .not6MemImm da => Sys2Proof.Machine.execNot6MemImm da s
  | .not6MemReg r => Sys2Proof.Machine.execNot6MemReg r s
  | .nop => Sys2Proof.Machine.execNop s
  | .halt => Sys2Proof.Machine.execHalt s

end Sys2Proof.Machine
end

