-- ==== Sys2Proof/Machine/Step.lean ====
section
/-! DEFINITION. Machine/Step.lean: one step of the core (spec/40_operand_mux.md R100; spec/10_state.md R40). -/

namespace Sys2Proof.Machine

/-- ONE STEP: on a Running core, the instruction whose bytes stand at PC, whatever the Halt bit holds (R40); on a Faulted
core, nothing but the same fault again (R40, R209). The state after a fault is `stepPort`'s (Machine/Ports.lean). -/
def step (s : State) : Host.Outcome State Fault Refusal :=
  match s.status with
  | .faulted record => .fault record
  | .running =>
    match decode (fetchWindow s) with
    | .error e => rejectOutcome s.pc e
    | .ok (i, _) => exec i s.closeLoad

/-- The state with the instruction whose bits are `w`, numbered as spec/opcode_table.json numbers them, stored at PC: the
step of a Running core fetches there and nowhere else (R25; log entry 6). -/
def State.withFetchWord (s : State) (nbits w : Nat) : State :=
  { s with
    mem := s.mem.writeList s.pc.toNat ((tableBytes nbits w).take (Config.memCapacity - s.pc.toNat)) }

end Sys2Proof.Machine
end

