-- ==== Sys2Proof/Machine/Ports.lean ====
section
/-! DEFINITION. Machine/Ports.lean: the host interface at transaction level (spec/10_state.md R37 to R41;
spec/70_reset_and_hazards.md R231 to R233). Every port is a move between steps (R39). -/

namespace Sys2Proof.Machine

/-- What a port other than `Step` returns when it is turned away. None of these faults the core (R38). -/
inductive PortError where
  /-- RegisterFault to the host (R38): the code selects no register. -/
  | registerFault (code : Nibble)
  /-- MemoryFault to the host (R38): the address is at or above `MEM_CAPACITY`. -/
  | memoryFault (addr : Word) (access : Access)
  /-- A load longer than the memory (R231). -/
  | loadTooLong
  /-- A load after the first load or the first step (R232). -/
  | loadClosed
deriving DecidableEq, Repr

/-- What `Step()` returns (R40); `refused` is the strict decoder's (R88). -/
inductive StepStatus where
  | running
  | faulted (record : Fault)
  | refused (reason : Refusal)
deriving DecidableEq, Repr

/-! ### Registers, memory bytes and flags (R38) -/

/-- `RegRead(code)`. -/
def regRead (code : Nibble) (s : State) : Except PortError Word :=
  match regOfCode code with
  | some r => .ok (s.reg r)
  | none => .error (.registerFault code)

/-- `RegWrite(code, v)`. -/
def regWrite (code : Nibble) (v : Word) (s : State) : Except PortError State :=
  match regOfCode code with
  | some r => .ok (s.setReg r v)
  | none => .error (.registerFault code)

/-- `MemReadByte(addr)`. -/
def memReadByte (addr : Word) (s : State) : Except PortError Byte :=
  if InRange addr .byte then .ok (s.mem.read addr.toNat) else .error (.memoryFault addr .read)

/-- `MemWriteByte(addr, v)`. -/
def memWriteByte (addr : Word) (v : Byte) (s : State) : Except PortError State :=
  if InRange addr .byte then .ok { s with mem := s.mem.write addr.toNat v } else .error (.memoryFault addr .write)

/-- `FlagTest(bit)`: any of the eight bits (R29). -/
def flagTest (bit : Fin 8) (s : State) : Bool := testBit s.flags bit

/-- `FlagWrite(bit, v)`: any of the eight bits, Halt among them (R38). -/
def flagWrite (bit : Fin 8) (v : Bool) (s : State) : State := { s with flags := writeBit s.flags bit v }

/-! ### Load and Step -/

/-- `Load(bytes)` (R231, R232): the bytes at address 0 and up, and how many. Turned away, it writes nothing, and a load
too long leaves the one load still open (log entry 9). -/
def loadProgram (bytes : List Byte) (s : State) : Except PortError (State × Nat) :=
  if s.loadOpen = false then .error .loadClosed
  else if Config.memCapacity < bytes.length then .error .loadTooLong
  else .ok ({ s.closeLoad with mem := s.mem.writeList 0 bytes }, bytes.length)

/-- `Step()` (R40): the state after it and what it returns. A Faulted core is left as it is; a Running core that faults
takes the fault (R201, R207). -/
def stepPort (s : State) : State × StepStatus :=
  match s.status with
  | .faulted record => (s, .faulted record)
  | .running =>
    match step s with
    | .next t => (t, .running)
    | .fault record => (s.closeLoad.raiseFault record, .faulted record)
    | .refused reason => (s.closeLoad, .refused reason)

/-! ### The host's loop -/

/-- How the host's loop stands after so many steps (R41). -/
inductive DriveEnd where
  /-- The normal end: a state between steps with `flags.H = 1`. -/
  | halted (s : State)
  /-- The abnormal end: `Step()` returned Faulted. -/
  | faulted (s : State) (record : Fault)
  /-- The strict decoder gave an instruction no meaning. -/
  | refused (s : State) (reason : Refusal)
  /-- Neither yet: the core gives no time limit. -/
  | running (s : State)
deriving DecidableEq, Repr

/-- The host's stepping loop (R41, R233), at most so many steps of it: look at the Halt bit before each step, and stop
once it is set or a step returns Faulted. -/
def drive (steps : Nat) (s : State) : DriveEnd :=
  if s.flag .halt then .halted s
  else
    match steps with
    | 0 => .running s
    | n + 1 =>
      match stepPort s with
      | (t, .running) => drive n t
      | (t, .faulted record) => .faulted t record
      | (t, .refused reason) => .refused t reason

/-- The boot sequence before the loop (R233): create, load, set SP. The host picks SP at least the load's length. -/
def boot (init : Config.InitRegs) (program : List Byte) (sp : Word) : Except PortError State := do
  let (s, _) ← loadProgram program (State.create init)
  regWrite (codeOfReg .sp) sp s

end Sys2Proof.Machine
end

