-- ==== Sys2Proof/Machine/Sequence.lean ====
section
/-! DEFINITION. Machine/Sequence.lean: the step as spec/40_operand_mux.md R100 writes it, byte by byte. Every `Fetch8` and
`FetchWord` moves PC as it reads (spec/00_scope.md R12). `step` decodes a window of bytes instead and moves PC once; that
the two are one function is a statement of Certificates/Slice0. -/

namespace Sys2Proof.Machine

/-- `Fetch8()` (R12), in the instruction at `start`. -/
def fetch8 (start : Word) (s : State) : Except Fault (Byte × State) := do
  let b ← s.loadByte start .fetch s.pc
  .ok (b, s.advance 1)

/-- `FetchWord()` (R12), in the instruction at `start`. -/
def fetchWord (start : Word) (s : State) : Except Fault (Word × State) := do
  let v ← s.loadWord start .fetch s.pc
  .ok (v, s.advance 8)

/-- A register code R100 checks: `if code > 6: raise RegisterFault(code, start)`. -/
def checkReg (start : Word) (code : Nibble) : Except Fault Reg :=
  match regOfCode code with
  | some r => .ok r
  | none => .error (.registerFault code start)

/-- The source operand of `Execute2` (R102) as R100 comes to it: its register code checked first, its field fetched
after the destination's code is checked. -/
def sequenceSource (start : Word) (kind : Kind) (r : Reg) (s : State) : Except Fault (Operand × State) :=
  match kind with
  | .reg => .ok (.reg r, s)
  | .memReg => .ok (.memReg r, s)
  | .imm => do
    let (v, s) ← fetchWord start s
    .ok (.imm v, s)
  | .memImm => do
    let (v, s) ← fetchWord start s
    .ok (.memImm v, s)

/-- A destination operand as R100 comes to it (R107); an immediate is none. -/
def sequenceDest (start : Word) (kind : Kind) (r : Reg) (s : State) : Except Fault (Dest × State) :=
  match kind with
  | .memReg => .ok (.memReg r, s)
  | .memImm => do
    let (v, s) ← fetchWord start s
    .ok (.memImm v, s)
  | .reg | .imm => .ok (.reg r, s)

/-- The register an operand of a kind uses, its code checked (R79, R83); a kind that uses none is not checked, and what
is returned for it is never used. -/
def sequenceReg (start : Word) (kind : Kind) (code : Nibble) : Except Fault Reg :=
  if kind.usesReg then checkReg start code else .ok .a

/-- `DecodeF2(op)` and `Execute2` (R100, R112). -/
def sequenceF2 (op : Op2) (start : Word) (s : State) : Except Fault State := do
  let (mode, s) ← fetch8 start s
  match modeTable (loNibble mode) with
  | none => .error (.decodeFault .mode mode start)
  | some m => do
    let (sel, s) ← fetch8 start s
    let rs ← sequenceReg start m.src (hiNibble sel)
    let rd ← sequenceReg start m.dst (loNibble sel)
    let (src, s) ← sequenceSource start m.src rs s
    let (dst, s) ← sequenceDest start m.dst rd s
    operate2 op start src dst s

/-- `DecodeF1(op)` and `Execute1` (R100, R180). -/
def sequenceF1 (start : Word) (s : State) : Except Fault State := do
  let (cm, s) ← fetch8 start s
  match cmplKindTable (hiNibble cm) with
  | none => .error (.decodeFault .cmode cm start)
  | some kind => do
    let r ← sequenceReg start kind (loNibble cm)
    let (operand, s) ← sequenceDest start kind r s
    operate1 start operand s

/-- The whole of `Step()` on a Running core (R100). -/
def stepSequence (s : State) : Except Fault State := do
  let start := s.pc
  let (op, s) ← fetch8 start s
  match opcodeOf op with
  | none => .error (.decodeFault .opcode op start)
  | some .nop => .ok s
  | some .halt => .ok s.setHalt
  | some (.two op) => sequenceF2 op start s
  | some (.one _) => sequenceF1 start s

end Sys2Proof.Machine
end

