-- ==== Sys2Proof/Safety.lean ====
section
/-! DEFINITION. Safety.lean: the terms the statements are made in: the invariant, what an instruction leaves unchanged,
what stands in memory, which register and which bytes an instruction may write, and how an encoding runs. -/

namespace Sys2Proof.Machine

/-! ### The invariant -/

/-- The invariant of the model: memory is in its canonical form and inside the memory (R34, R50). -/
abbrev State.Inv (s : State) : Prop := s.mem.wf ∧ s.mem.bounded

/-! ### What an instruction sees and leaves -/

/-- Register `r` as the operation of an instruction of `len` bytes at `s` reads it: PC is past the instruction (R101). -/
def seen (s : State) (len : Nat) (r : Reg) : Word :=
  if r = .pc then s.pc + BitVec.ofNat 64 len else s.reg r

/-- Flags, run status, the host's load and the free values are as they were. -/
def ControlKept (s t : State) : Prop :=
  t.flags = s.flags ∧ t.status = s.status ∧ t.loadOpen = s.loadOpen ∧ t.free = s.free

/-- Every register but PC is as it was. -/
def RegistersKept (s t : State) : Prop := ∀ r, r ≠ .pc → t.reg r = s.reg r

/-- Every byte of memory is as it was. -/
def MemoryKept (s t : State) : Prop := ∀ x : Nat, t.mem.read x = s.mem.read x

/-- Every byte of memory outside the `n` bytes at `addr` is as it was. -/
def MemoryKeptOutside (s t : State) (addr n : Nat) : Prop :=
  ∀ x : Nat, x < addr ∨ addr + n ≤ x → t.mem.read x = s.mem.read x

/-- The eight bytes at `addr` are those of word `v`, the byte at `addr + k` being `v[63-8k:56-8k]` (R52). -/
def WordAt (m : Memory) (addr : Nat) (v : Word) : Prop :=
  ∀ k : Nat, k < 8 → m.read (addr + k) = v.extractLsb' (56 - 8 * k) 8

/-- `t` is `s` after an instruction of `len` bytes whose one effect is `x[rd] <- v`: where `rd` is PC the value written
replaces the advanced one (R101). -/
def WritesRegister (s t : State) (len : Nat) (rd : Reg) (v : Word) : Prop :=
  t.reg rd = v ∧ (∀ r, r ≠ rd → r ≠ .pc → t.reg r = s.reg r) ∧
    (rd ≠ .pc → t.reg .pc = s.pc + BitVec.ofNat 64 len) ∧ ControlKept s t ∧ MemoryKept s t

/-- `t` is `s` after an instruction of `len` bytes whose one effect is `MemWrite(addr, 8, v)`. -/
def WritesWord (s t : State) (len : Nat) (addr v : Word) : Prop :=
  RegistersKept s t ∧ t.reg .pc = s.pc + BitVec.ofNat 64 len ∧ ControlKept s t ∧
    WordAt t.mem addr.toNat v ∧ MemoryKeptOutside s t addr.toNat 8

/-- `t` is `s` after an instruction of `len` bytes whose one effect is `MemWrite(addr, 1, v)`. -/
def WritesByte (s t : State) (len : Nat) (addr : Word) (v : Byte) : Prop :=
  RegistersKept s t ∧ t.reg .pc = s.pc + BitVec.ofNat 64 len ∧ ControlKept s t ∧
    t.mem.read addr.toNat = v ∧ MemoryKeptOutside s t addr.toNat 1

/-- The register an instruction's operand names as its destination, if it has one. -/
def destReg : Instr → Option Reg
  | .movIR _ rd | .movRR _ rd | .movMiR _ rd | .movMrR _ rd => some rd
  | .addIR _ rd | .addRR _ rd | .addMiR _ rd | .addMrR _ rd => some rd
  | .subIR _ rd | .subRR _ rd | .subMiR _ rd | .subMrR _ rd => some rd
  | .notReg r | .not6Reg r => some r
  | .movIMr _ _ | .movRMr _ _ | .movMiMi _ _ => none
  | .addIMr _ _ | .addRMr _ _ | .addMiMi _ _ => none
  | .subIMr _ _ | .subRMr _ _ | .subMiMi _ _ => none
  | .notMemImm _ | .notMemReg _ | .not6MemImm _ | .not6MemReg _ => none
  | .nop | .halt => none

/-- The address an instruction at `s` stores to and how many bytes it stores there (R54, R107), if it stores. -/
def storeOf (i : Instr) (s : State) : Option (Word × Nat) :=
  match i with
  | .movIMr _ rd | .movRMr _ rd | .addIMr _ rd | .addRMr _ rd | .subIMr _ rd | .subRMr _ rd =>
    some (seen s i.length rd, 8)
  | .movMiMi _ da | .addMiMi _ da | .subMiMi _ da => some (da, 8)
  | .notMemReg r | .not6MemReg r => some (seen s i.length r, 1)
  | .notMemImm da | .not6MemImm da => some (da, 1)
  | .movIR _ _ | .movRR _ _ | .movMiR _ _ | .movMrR _ _ => none
  | .addIR _ _ | .addRR _ _ | .addMiR _ _ | .addMrR _ _ => none
  | .subIR _ _ | .subRR _ _ | .subMiR _ _ | .subMrR _ _ => none
  | .notReg _ | .not6Reg _ => none
  | .nop | .halt => none

/-- The registers an instruction's operands name. -/
def namedRegs : Instr → List Reg
  | .movIR _ rd | .movMiR _ rd | .movIMr _ rd => [rd]
  | .addIR _ rd | .addMiR _ rd | .addIMr _ rd => [rd]
  | .subIR _ rd | .subMiR _ rd | .subIMr _ rd => [rd]
  | .movRR rs rd | .movMrR rs rd | .movRMr rs rd => [rs, rd]
  | .addRR rs rd | .addMrR rs rd | .addRMr rs rd => [rs, rd]
  | .subRR rs rd | .subMrR rs rd | .subRMr rs rd => [rs, rd]
  | .notReg r | .notMemReg r | .not6Reg r | .not6MemReg r => [r]
  | .movMiMi _ _ | .addMiMi _ _ | .subMiMi _ _ => []
  | .notMemImm _ | .not6MemImm _ => []
  | .nop | .halt => []

/-! ### How an encoding runs -/

/-- The bytes stand in memory at PC, all of them inside the memory. -/
def AtPc (s : State) (bytes : List Byte) : Prop :=
  s.pc.toNat + bytes.length ≤ Config.memCapacity ∧
    ∀ k (h : k < bytes.length), s.mem.read (s.pc.toNat + k) = bytes[k]

/-- Wherever the bytes stand at PC, a Running core's step is the instruction's effect. -/
def RunsAs (bytes : List Byte) (i : Instr) : Prop :=
  ∀ s, s.status = .running → AtPc s bytes → step s = exec i s.closeLoad

/-- Wherever the bytes stand at PC, whatever follows them, a Running core's step raises the fault. -/
def Raises (bytes : List Byte) (f : Word → Fault) : Prop :=
  ∀ s, s.status = .running → AtPc s bytes → step s = .fault (f s.pc)

/-- An F2 encoding of three bytes (R73): both selector nibbles name registers, `rs` checked first (R79, R208). -/
def CodedRsRd (op : Byte) (nibble : Nibble) (i : Reg → Reg → Instr) : Prop :=
  ∀ m rs rd : Nibble,
    (6 < rs.toNat → Raises [op, byteOf m nibble, byteOf rs rd] (.registerFault rs)) ∧
    (rs.toNat ≤ 6 → 6 < rd.toNat → Raises [op, byteOf m nibble, byteOf rs rd] (.registerFault rd)) ∧
    (∀ r q, regOfCode rs = some r → regOfCode rd = some q → RunsAs [op, byteOf m nibble, byteOf rs rd] (i r q))

/-- An F2 encoding of eleven bytes (R73): `rd` names a register, `rs` is ignored, one field follows (R80). `rd` is
checked before the field is fetched (R208). -/
def CodedFieldRd (op : Byte) (nibble : Nibble) (i : Word → Reg → Instr) : Prop :=
  ∀ m rs rd : Nibble,
    (6 < rd.toNat → Raises [op, byteOf m nibble, byteOf rs rd] (.registerFault rd)) ∧
    (∀ v q, regOfCode rd = some q → RunsAs ([op, byteOf m nibble, byteOf rs rd] ++ bytesOfWord v) (i v q))

/-- An F2 encoding of nineteen bytes (R73): both selector nibbles are ignored, two fields follow, source first (R80). -/
def CodedFieldField (op : Byte) (nibble : Nibble) (i : Word → Word → Instr) : Prop :=
  ∀ (m rs rd : Nibble) (v w : Word),
    RunsAs ([op, byteOf m nibble, byteOf rs rd] ++ bytesOfWord v ++ bytesOfWord w) (i v w)

/-- An F1 encoding of two bytes (R81): the low cmode nibble names a register (R83). -/
def CodedR (op : Byte) (kind : Nibble) (i : Reg → Instr) : Prop :=
  ∀ r : Nibble,
    (6 < r.toNat → Raises [op, byteOf kind r] (.registerFault r)) ∧
    (∀ q, regOfCode r = some q → RunsAs [op, byteOf kind r] (i q))

/-- An F1 encoding of ten bytes (R81): the low cmode nibble is ignored (R83), one field follows. -/
def CodedField (op : Byte) (kind : Nibble) (i : Word → Instr) : Prop :=
  ∀ (r : Nibble) (v : Word), RunsAs ([op, byteOf kind r] ++ bytesOfWord v) (i v)

/-- An F2 instruction's bytes after the opcode with the ignored bits of R88 at 0: `mode[7:4]`, an unused selector
nibble. -/
def clearIgnoredF2 : List Byte → List Byte
  | mode :: sel :: rest =>
    match modeTable (loNibble mode) with
    | none => mode :: sel :: rest
    | some m =>
      byteOf 0 (loNibble mode) ::
        byteOf (if m.src.usesReg then hiNibble sel else 0) (if m.dst.usesReg then loNibble sel else 0) :: rest
  | bytes => bytes

/-- An F1 instruction's bytes after the opcode with the ignored bits of R88 at 0: `cmode[3:0]` of the kind MemImm. -/
def clearIgnoredF1 : List Byte → List Byte
  | cm :: rest => (if cmplKindTable (hiNibble cm) = some .memImm then byteOf (hiNibble cm) 0 else cm) :: rest
  | [] => []

/-- An instruction's bytes with the ignored bits of R88 at 0. -/
def clearIgnored : List Byte → List Byte
  | [] => []
  | op :: bytes =>
    match opcodeOf op with
    | some (.two _) => op :: clearIgnoredF2 bytes
    | some (.one _) => op :: clearIgnoredF1 bytes
    | some .nop | some .halt | none => op :: bytes

/-- The opcode byte R71 gives the mnemonic of a line. -/
def mnemonicByte : Source → Byte
  | .nop => 0x00
  | .halt => 0x01
  | .two .mov _ _ => 0x02
  | .two .add _ _ => 0x03
  | .two .sub _ _ => 0x04
  | .one .not _ => 0x05
  | .one .not6 _ => 0x06

end Sys2Proof.Machine
end

