-- ==== Sys2Proof/Certificates/Slice0/Obligations.lean ====
section
/-! DEFINITION. Certificates/Slice0/Obligations.lean: the statements for the provers. Rules are cited as in spec/. A rule
that the spec marks as its own decision D<n> is named with that decision. -/

open Sys2Proof Sys2Proof.Machine

/-! ### Encoding -/

/-- Words written out from the encodings of R71, R73, R76, R81 and R84 (vectors of spec/95_test_vectors.md). -/
def Obligations.SpecWordsDecode : Prop :=
  decode [0x00] = .ok (.nop, []) ∧
  decode [0x01] = .ok (.halt, []) ∧
  decode [0x02, 0x02, 0x00, 0, 0, 0, 0, 0, 0, 0, 5] = .ok (.movIR 5 .a, []) ∧
  decode [0x02, 0x07, 0x12] = .ok (.movMrR .b .c, []) ∧
  decode [0x03, 0x0B, 0x01] = .ok (.addRMr .a .b, []) ∧
  decode [0x04, 0x0C, 0x00, 0, 0, 0, 0, 0, 0, 1, 0, 0, 0, 0, 0, 0, 0, 2, 0] = .ok (.subMiMi 0x100 0x200, []) ∧
  decode [0x05, 0x10, 0, 0, 0, 0, 0, 0, 1, 0] = .ok (.notMemImm 0x100, []) ∧
  decode [0x06, 0x06] = .ok (.not6Reg .pc, [])

/-- R71: the opcode byte selects the instruction; 0x07 to 0xFF are illegal. -/
def Obligations.OpcodeByteSelectsTheInstruction : Prop :=
  (∀ b bytes i rest, decode (b :: bytes) = .ok (i, rest) → b = mnemonicByte i.toSource) ∧
  (∀ i, (encode i).head? = some (mnemonicByte i.toSource)) ∧
  (∀ b : Byte, 6 < b.toNat → Raises [b] (.decodeFault .opcode b))

/-- R75 (the spec's decision D4): the four bits of a recognized mode nibble, least significant first, are SR, DR, SM and
DM, and each operand's kind is the one its register and memory bits name. -/
def Obligations.ModeNibbleBitsNameTheOperandKinds : Prop :=
  ∀ n m, modeTable n = some m →
    m.src.usesReg = n.getLsbD 0 ∧ m.dst.usesReg = n.getLsbD 1 ∧
    m.src.isMemory = n.getLsbD 2 ∧ m.dst.isMemory = n.getLsbD 3

/-- R77, R78, R202 (the spec's decisions D4, D5, D11, D16, D23): what is not recognized raises DecodeFault, whatever
follows it. -/
def Obligations.UnrecognizedBytesRaiseDecodeFault : Prop :=
  (∀ b : Byte, 6 < b.toNat → Raises [b] (.decodeFault .opcode b)) ∧
  (∀ op ∈ [0x02, 0x03, 0x04], ∀ mode : Byte,
    loNibble mode ∈ [0x0, 0x1, 0x4, 0x5, 0x8, 0x9, 0xD, 0xE, 0xF] → Raises [op, mode] (.decodeFault .mode mode)) ∧
  (∀ op ∈ [0x05, 0x06], ∀ cm : Byte, 2 < (hiNibble cm).toNat → Raises [op, cm] (.decodeFault .cmode cm)) ∧
  (∀ s, s.status = .running → AtPc s [0x00] ∨ AtPc s [0x01] → ∀ k b start, step s ≠ .fault (.decodeFault k b start))

/-- R203 (the spec's decisions D2, D8, D23): a used register code of 7 to 15 raises RegisterFault, `rs` before `rd`, and
nothing else does: an unused nibble never raises it. -/
def Obligations.UsedInvalidCodesRaiseRegisterFault : Prop :=
  (∀ op ∈ [0x02, 0x03, 0x04], ∀ (mode sel : Byte) (m : Mode), modeTable (loNibble mode) = some m →
    (m.src.usesReg = true → 6 < (hiNibble sel).toNat → Raises [op, mode, sel] (.registerFault (hiNibble sel))) ∧
    ((m.src.usesReg = true → (hiNibble sel).toNat ≤ 6) → m.dst.usesReg = true → 6 < (loNibble sel).toNat →
      Raises [op, mode, sel] (.registerFault (loNibble sel)))) ∧
  (∀ op ∈ [0x05, 0x06], ∀ (cm : Byte) (kind : Kind), cmplKindTable (hiNibble cm) = some kind → kind.usesReg = true →
    6 < (loNibble cm).toNat → Raises [op, cm] (.registerFault (loNibble cm))) ∧
  (∀ s code start, s.status = .running → step s = .fault (.registerFault code start) →
    start = s.pc ∧ 6 < code.toNat ∧
    ((s.mem.read s.pc.toNat ∈ [0x02, 0x03, 0x04] ∧ ∃ m, modeTable (loNibble (s.mem.read (s.pc.toNat + 1))) = some m ∧
        (m.src.usesReg = true ∧ code = hiNibble (s.mem.read (s.pc.toNat + 2)) ∨
          m.dst.usesReg = true ∧ code = loNibble (s.mem.read (s.pc.toNat + 2)))) ∨
      (s.mem.read s.pc.toNat ∈ [0x05, 0x06] ∧
        ∃ kind, cmplKindTable (hiNibble (s.mem.read (s.pc.toNat + 1))) = some kind ∧ kind.usesReg = true ∧
          code = loNibble (s.mem.read (s.pc.toNat + 1)))))

/-- R28, R55, R208: bytes that end before the instruction does are a fetch out of range, at the address of the byte or
word wanted; and nothing is fetched at or above `MEM_CAPACITY`. -/
def Obligations.FetchPastTheEndRaisesMemoryFault : Prop :=
  (∀ s offset w, s.status = .running → decode (fetchWindow s) = .error (.truncated offset w) →
    step s = .fault (.memoryFault (s.pc + BitVec.ofNat 64 offset) w .fetch s.pc) ∧
    Config.memCapacity < s.pc.toNat + offset + bytesOf w) ∧
  (∀ s, s.status = .running → Config.memCapacity ≤ s.pc.toNat → step s = .fault (.memoryFault s.pc .byte .fetch s.pc))

/-- R90, which the spec derives: decode of encode is the instruction, with every operand at every value, and the bytes
after it are left; encode of decode is the bytes, where the ignored bits are zero. -/
def Obligations.EncodeAndDecodeAreInverse : Prop :=
  (∀ i rest, decode (encode i ++ rest) = .ok (i, rest)) ∧
  (∀ bytes i rest, decode bytes = .ok (i, rest) → hasIgnoredBits bytes = false → bytes = encode i ++ rest)

/-- R86, which the spec derives: the lengths. -/
def Obligations.EncodingsHaveTheTabulatedLengths : Prop :=
  (∀ op rs rd, (encode (instrRR op rs rd)).length = 3 ∧ (encode (instrMrR op rs rd)).length = 3 ∧
    (encode (instrRMr op rs rd)).length = 3) ∧
  (∀ op v rd, (encode (instrIR op v rd)).length = 11 ∧ (encode (instrMiR op v rd)).length = 11 ∧
    (encode (instrIMr op v rd)).length = 11) ∧
  (∀ op sa da, (encode (instrMiMi op sa da)).length = 19) ∧
  (∀ op r, (encode (instrCmplReg op r)).length = 2 ∧ (encode (instrCmplMemReg op r)).length = 2) ∧
  (∀ op da, (encode (instrCmplMemImm op da)).length = 10) ∧
  (encode .nop).length = 1 ∧ (encode .halt).length = 1

/-- R85, which the spec derives: the opcode and the byte after it give the length, and the decoder consumes exactly that
many bytes. -/
def Obligations.LengthIsKnownFromTwoBytes : Prop :=
  ∀ op bytes i rest, decode (op :: bytes) = .ok (i, rest) →
    lengthFrom op (bytes.headD 0) = some i.length ∧ rest = (op :: bytes).drop i.length ∧
      (op :: bytes).length = i.length + rest.length

/-- R74, R79, R83, R88 (the spec's decisions D6, D8, D11): the ignored bits change nothing; of what decodes, the
strict decoder refuses exactly what has one set. Of what does not decode nothing is said (log entry 14). -/
def Obligations.IgnoredBitsAreIgnored : Prop :=
  ∀ bytes i rest, decode bytes = .ok (i, rest) →
    decode (clearIgnored bytes) = .ok (i, rest) ∧ hasIgnoredBits (clearIgnored bytes) = false ∧
    decodeWith true bytes = if hasIgnoredBits bytes then .error .ignoredBits else .ok (i, rest)

/-- R89 (the spec's decisions D5, D28): what the encoder emits for each operand pair, and that it refuses every other. -/
def Obligations.EncoderEmitsTheFormatsAndRefusesOtherPairs : Prop :=
  (∀ line, encodeSource line = none ↔ line.wellFormed = false) ∧
  (∀ (op : Op2) (o : Byte) (r q : Reg) (v w : Word), o = mnemonicByte (.two op (.reg r) (.reg q)) →
    encodeSource (.two op (.imm v) (.reg q)) = some ([o, 0x02, byteOf 0 (codeOfReg q)] ++ bytesOfWord v) ∧
    encodeSource (.two op (.reg r) (.reg q)) = some [o, 0x03, byteOf (codeOfReg r) (codeOfReg q)] ∧
    encodeSource (.two op (.memImm v) (.reg q)) = some ([o, 0x06, byteOf 0 (codeOfReg q)] ++ bytesOfWord v) ∧
    encodeSource (.two op (.memReg r) (.reg q)) = some [o, 0x07, byteOf (codeOfReg r) (codeOfReg q)] ∧
    encodeSource (.two op (.imm v) (.memReg q)) = some ([o, 0x0A, byteOf 0 (codeOfReg q)] ++ bytesOfWord v) ∧
    encodeSource (.two op (.reg r) (.memReg q)) = some [o, 0x0B, byteOf (codeOfReg r) (codeOfReg q)] ∧
    encodeSource (.two op (.memImm v) (.memImm w)) = some ([o, 0x0C, 0x00] ++ bytesOfWord v ++ bytesOfWord w)) ∧
  (∀ (op : Op1) (o : Byte) (r : Reg) (v : Word), o = mnemonicByte (.one op (.reg r)) →
    encodeSource (.one op (.reg r)) = some [o, byteOf 0x0 (codeOfReg r)] ∧
    encodeSource (.one op (.memImm v)) = some ([o, 0x10] ++ bytesOfWord v) ∧
    encodeSource (.one op (.memReg r)) = some [o, byteOf 0x2 (codeOfReg r)]) ∧
  encodeSource .nop = some [0x00] ∧ encodeSource .halt = some [0x01]

/-! ### The step -/

/-- R40, R100: the step of a Running core is `exec` of the instruction whose bytes stand at PC; the one thing it adds is
that the host's load is closed from then on (log entry 4). -/
def Obligations.StepRunsTheDecodedInstruction : Prop :=
  (∀ s i rest, s.status = .running → decode (fetchWindow s) = .ok (i, rest) → i.wellFormed = true →
    step s = exec i s.closeLoad) ∧
  (∀ i, RunsAs (encode i) i) ∧
  (∀ s k, k < 19 → s.pc.toNat + k < Config.memCapacity →
    (fetchWindow s)[k]? = some (s.mem.read (s.pc.toNat + k)))

/-- R100 (the spec's decisions D7, D11, D12, D16): the step of a Running core is the sequence of fetches, checks and
operation that R100 writes out, fault for fault and state for state. -/
def Obligations.StepIsTheFetchDecodeExecuteSequence : Prop :=
  ∀ s, s.status = .running → step s = outcomeOf (stepSequence s.closeLoad)

/-- R40 (the spec's decision D15): what `Step()` does and returns, whatever the flags hold. -/
def Obligations.StepPortAnswersRunningOrFaulted : Prop :=
  (∀ s t, s.status = .running → step s = .next t → stepPort s = (t, .running)) ∧
  (∀ s f, s.status = .running → step s = .fault f → ∃ t, stepPort s = (t, .faulted f) ∧ t.status = .faulted f) ∧
  (∀ s i rest, s.status = .running → decode (fetchWindow s) = .ok (i, rest) → step s = exec i s.closeLoad) ∧
  (∀ s f, s.status = .faulted f → stepPort s = (s, .faulted f))

/-- R209 (the spec's decision D15): Faulted is terminal: a Faulted core takes no further step, however often it is asked,
nothing runs after a fault, and the host may still look at everything. -/
def Obligations.FaultedIsTerminal : Prop :=
  (∀ s f, s.status = .faulted f → step s = .fault f ∧ stepPort s = (s, .faulted f)) ∧
  (∀ s f, step s = .fault f → ∀ n, (Nat.iterate (fun u => (stepPort u).1) n (stepPort s).1) = (stepPort s).1) ∧
  (∀ s f, s.status = .faulted f → (∀ r, regRead (codeOfReg r) s = .ok (s.reg r)) ∧
    (∀ addr, InRange addr .byte → memReadByte addr s = .ok (s.mem.read addr.toNat)) ∧
    ∀ bit, flagTest bit s = s.flags.getLsbD bit)

/-- R30 (with it R31 and R114 in part): HALT sets the Halt bit and no other; no other instruction writes a flag; and a core
with Halt set runs on. -/
def Obligations.OnlyHaltWritesTheFlags : Prop :=
  (∀ s t, exec .halt s = .next t → t.flag .halt = true ∧ ∀ n : Fin 8, n ≠ 0 → testBit t.flags n = testBit s.flags n) ∧
  (∀ i s t, i ≠ .halt → exec i s = .next t → t.flags = s.flags) ∧
  (∀ s i rest, s.status = .running → s.flag .halt = true → decode (fetchWindow s) = .ok (i, rest) →
    step s = exec i s.closeLoad)

/-- R32, which the spec derives: no instruction and no fault depends on the flag register. -/
def Obligations.TheFlagsAreNeverRead : Prop :=
  ∀ s g,
    (∀ t, step s = .next t → ∃ h, step { s with flags := g } = .next { t with flags := h }) ∧
    (∀ f, step s = .fault f → step { s with flags := g } = .fault f)

/-- R24, R33, which the spec derives in part: an instruction changes at most the register its operand names as its
destination, beside PC, and never the run status, the host's load or the free values. -/
def Obligations.OnlyTheNamedRegisterIsWritten : Prop :=
  ∀ i s t, exec i s = .next t →
    (∀ r, r ≠ .pc → destReg i ≠ some r → t.reg r = s.reg r) ∧
    t.status = s.status ∧ t.loadOpen = s.loadOpen ∧ t.free = s.free

/-- R54, R109, R180: an instruction changes no byte of memory but those it stores to, and stores in range. -/
def Obligations.OnlyTheStoredBytesChange : Prop :=
  ∀ i s t, s.mem.wf → exec i s = .next t →
    (storeOf i s = none → MemoryKept s t) ∧
    (∀ addr n, storeOf i s = some (addr, n) →
      addr.toNat + n ≤ Config.memCapacity ∧ MemoryKeptOutside s t addr.toNat n)

/-- R101 (the spec's decision D12): PC is past the whole instruction when the operation reads it, as an operand or as an
address base; what the operation writes to PC replaces that value, and otherwise it stays. -/
def Obligations.PcIsPastTheInstructionUnlessWritten : Prop :=
  (∀ i s t, exec i s = .next t → destReg i ≠ some .pc → t.pc = s.pc + BitVec.ofNat 64 i.length) ∧
  (∀ s rd, ∃ t, exec (.movRR .pc rd) s = .next t ∧ t.reg rd = s.pc + 3) ∧
  (∀ s v, ∃ t, exec (.movIR v .pc) s = .next t ∧ t.pc = v) ∧
  (∀ s rd, InRange (s.pc + 3) .byte →
    ∃ t, exec (.movMrR .pc rd) s = .next t ∧ t.reg rd = zext64 (s.mem.read (s.pc + 3).toNat)) ∧
  (∀ s v, s.mem.wf → InRange (s.pc + 11) .word →
    ∃ t, exec (.movIMr v .pc) s = .next t ∧ WordAt t.mem (s.pc + 11).toNat v) ∧
  (∀ s v, ∃ t, exec (.addIR v .pc) s = .next t ∧ t.pc = s.pc + 11 + v) ∧
  (∀ s, ∃ t, exec (.notReg .pc) s = .next t ∧ t.pc = ~~~(s.pc + 2)) ∧
  (∀ s, s.mem.wf → InRange (s.pc + 2) .byte →
    ∃ t, exec (.notMemReg .pc) s = .next t ∧ t.mem.read (s.pc + 2).toNat = ~~~(s.mem.read (s.pc + 2).toNat))

/-- R23, which the spec derives: a register other than PC (SP and BP among them) that no operand names is neither read nor
written: another value in it changes nothing else. -/
def Obligations.UnnamedRegistersAreNeitherReadNorWritten : Prop :=
  ∀ i s r v, r ≠ .pc → r ∉ namedRegs i →
    (∀ t, exec i s = .next t → t.reg r = s.reg r ∧ exec i (s.setReg r v) = .next (t.setReg r v)) ∧
    (∀ f, exec i s = .fault f → exec i (s.setReg r v) = .fault f)

/-- R200, R205, R206 (the spec's decisions D13, D23): a step that faults raises one of three faults, with the address of
its opcode byte; a MemoryFault only for an access out of range; arithmetic and alignment raise none. -/
def Obligations.EveryFaultIsOneOfThree : Prop :=
  ∀ s f, s.status = .running → step s = .fault f →
    f.start = s.pc ∧
    ((∃ kind byte, f = .decodeFault kind byte s.pc) ∨
      (∃ code, f = .registerFault code s.pc ∧ 6 < code.toNat) ∨
      (∃ addr w access, f = .memoryFault addr w access s.pc ∧ ¬InRange addr w))

/-- At the spec's default parameters (00_scope.md R8) no step is refused: every byte sequence runs or faults. -/
def Obligations.NoStepIsRefused : Prop := ∀ s reason, step s ≠ .refused reason

/-- R207 (the spec's decision D15): a faulting instruction changes no register other than PC, no flag and no byte of
memory, and the record gives its address. What PC holds then is open (log entry 3) and nothing is said of it. -/
def Obligations.AFaultLeavesEverythingButPc : Prop :=
  ∀ s f, s.status = .running → step s = .fault f →
    ∃ t, stepPort s = (t, .faulted f) ∧ RegistersKept s t ∧ t.flags = s.flags ∧ MemoryKept s t ∧
      t.status = .faulted f ∧ f.start = s.pc

/-! ### The invariant -/

/-- Every step keeps memory canonical and inside the memory (the form of memory is the model's own), and a core that has
stepped is Running. -/
def Obligations.EveryStepKeepsTheInvariant : Prop :=
  ∀ s t, s.Inv → step s = .next t → t.Inv ∧ t.status = .running

/-- A core instance has the invariant at creation, whatever the launch inputs; so has `State.reset`. -/
def Obligations.CreationHasTheInvariant : Prop := (∀ init, (State.create init).Inv) ∧ State.reset.Inv

/-- What the host does between steps keeps the invariant. -/
def Obligations.EveryPortKeepsTheInvariant : Prop :=
  ∀ s, s.Inv →
    (stepPort s).1.Inv ∧
    (∀ bytes t n, loadProgram bytes s = .ok (t, n) → t.Inv) ∧
    (∀ code v t, regWrite code v s = .ok t → t.Inv) ∧
    (∀ addr v t, memWriteByte addr v s = .ok t → t.Inv) ∧
    (∀ bit v, (flagWrite bit v s).Inv)

/-! ### MOV -/

/-- R130, R131 (codes and nibbles: the spec's decisions D1, D4): MOV to a register from an immediate and from a register. -/
def Obligations.MovFromImmediateOrRegisterToRegister : Prop :=
  CodedFieldRd 0x02 0x2 .movIR ∧ CodedRsRd 0x02 0x3 .movRR ∧
  (∀ imm rd s, ∃ t, exec (.movIR imm rd) s = .next t ∧ WritesRegister s t 11 rd imm) ∧
  (∀ rs rd s, ∃ t, exec (.movRR rs rd) s = .next t ∧ WritesRegister s t 3 rd (seen s 3 rs))

/-- R132, R133 (the spec's decisions D4, D9, D13): MOV loads a word from an immediate address and one byte, zero-extended,
from the address in a register. -/
def Obligations.MovFromMemoryToRegister : Prop :=
  CodedFieldRd 0x02 0x6 .movMiR ∧ CodedRsRd 0x02 0x7 .movMrR ∧
  (∀ sa rd s, InRange sa .word →
    ∃ t, exec (.movMiR sa rd) s = .next t ∧ WritesRegister s t 11 rd (s.mem.readWord sa.toNat)) ∧
  (∀ sa rd s, ¬InRange sa .word → exec (.movMiR sa rd) s = .fault (.memoryFault sa .word .read s.pc)) ∧
  (∀ rs rd s, InRange (seen s 3 rs) .byte →
    ∃ t, exec (.movMrR rs rd) s = .next t ∧ WritesRegister s t 3 rd (zext64 (s.mem.read (seen s 3 rs).toNat))) ∧
  (∀ rs rd s, ¬InRange (seen s 3 rs) .byte →
    exec (.movMrR rs rd) s = .fault (.memoryFault (seen s 3 rs) .byte .read s.pc))

/-- R134, R135 (the spec's decisions D4, D13): MOV stores a word at the address in a register. -/
def Obligations.MovFromImmediateOrRegisterToMemory : Prop :=
  CodedFieldRd 0x02 0xA .movIMr ∧ CodedRsRd 0x02 0xB .movRMr ∧
  (∀ imm rd s, s.mem.wf → InRange (seen s 11 rd) .word →
    ∃ t, exec (.movIMr imm rd) s = .next t ∧ WritesWord s t 11 (seen s 11 rd) imm) ∧
  (∀ imm rd s, ¬InRange (seen s 11 rd) .word →
    exec (.movIMr imm rd) s = .fault (.memoryFault (seen s 11 rd) .word .write s.pc)) ∧
  (∀ rs rd s, s.mem.wf → InRange (seen s 3 rd) .word →
    ∃ t, exec (.movRMr rs rd) s = .next t ∧ WritesWord s t 3 (seen s 3 rd) (seen s 3 rs)) ∧
  (∀ rs rd s, ¬InRange (seen s 3 rd) .word →
    exec (.movRMr rs rd) s = .fault (.memoryFault (seen s 3 rd) .word .write s.pc))

/-- R136 (the spec's decisions D4, D9, D13): MOV copies a word in memory, read whole before it is written. -/
def Obligations.MovFromMemoryToMemory : Prop :=
  CodedFieldField 0x02 0xC .movMiMi ∧
  (∀ sa da s, s.mem.wf → InRange sa .word → InRange da .word →
    ∃ t, exec (.movMiMi sa da) s = .next t ∧ WritesWord s t 19 da (s.mem.readWord sa.toNat)) ∧
  (∀ sa da s, ¬InRange sa .word → exec (.movMiMi sa da) s = .fault (.memoryFault sa .word .read s.pc)) ∧
  (∀ sa da s, InRange sa .word → ¬InRange da .word →
    exec (.movMiMi sa da) s = .fault (.memoryFault da .word .write s.pc))

/-! ### ADD -/

/-- R151, R152 (the spec's decision D4): ADD adds to a register, an immediate or a register, modulo 2^64. -/
def Obligations.AddImmediateOrRegisterToRegister : Prop :=
  CodedFieldRd 0x03 0x2 .addIR ∧ CodedRsRd 0x03 0x3 .addRR ∧
  (∀ imm rd s, ∃ t, exec (.addIR imm rd) s = .next t ∧ WritesRegister s t 11 rd (seen s 11 rd + imm)) ∧
  (∀ rs rd s, ∃ t, exec (.addRR rs rd) s = .next t ∧ WritesRegister s t 3 rd (seen s 3 rd + seen s 3 rs))

/-- R153, R154 (the spec's decisions D4, D9): ADD adds to a register, the word at an immediate address or the byte,
zero-extended, at the address in a register. -/
def Obligations.AddMemoryToRegister : Prop :=
  CodedFieldRd 0x03 0x6 .addMiR ∧ CodedRsRd 0x03 0x7 .addMrR ∧
  (∀ sa rd s, InRange sa .word →
    ∃ t, exec (.addMiR sa rd) s = .next t ∧ WritesRegister s t 11 rd (seen s 11 rd + s.mem.readWord sa.toNat)) ∧
  (∀ sa rd s, ¬InRange sa .word → exec (.addMiR sa rd) s = .fault (.memoryFault sa .word .read s.pc)) ∧
  (∀ rs rd s, InRange (seen s 3 rs) .byte →
    ∃ t, exec (.addMrR rs rd) s = .next t ∧
      WritesRegister s t 3 rd (seen s 3 rd + zext64 (s.mem.read (seen s 3 rs).toNat))) ∧
  (∀ rs rd s, ¬InRange (seen s 3 rs) .byte →
    exec (.addMrR rs rd) s = .fault (.memoryFault (seen s 3 rs) .byte .read s.pc))

/-- R155, R156 (the spec's decisions D4, D10, D13): ADD adds to the word at the address in a register, an immediate or a
register. The destination is read first, so an address out of range is a read fault. -/
def Obligations.AddImmediateOrRegisterToMemory : Prop :=
  CodedFieldRd 0x03 0xA .addIMr ∧ CodedRsRd 0x03 0xB .addRMr ∧
  (∀ imm rd s, s.mem.wf → InRange (seen s 11 rd) .word →
    ∃ t, exec (.addIMr imm rd) s = .next t ∧
      WritesWord s t 11 (seen s 11 rd) (s.mem.readWord (seen s 11 rd).toNat + imm)) ∧
  (∀ imm rd s, ¬InRange (seen s 11 rd) .word →
    exec (.addIMr imm rd) s = .fault (.memoryFault (seen s 11 rd) .word .read s.pc)) ∧
  (∀ rs rd s, s.mem.wf → InRange (seen s 3 rd) .word →
    ∃ t, exec (.addRMr rs rd) s = .next t ∧
      WritesWord s t 3 (seen s 3 rd) (s.mem.readWord (seen s 3 rd).toNat + seen s 3 rs)) ∧
  (∀ rs rd s, ¬InRange (seen s 3 rd) .word →
    exec (.addRMr rs rd) s = .fault (.memoryFault (seen s 3 rd) .word .read s.pc))

/-- R157 (the spec's decisions D4, D10, D16): ADD adds to a word in memory, a word in memory; both are read before the write,
the source first. -/
def Obligations.AddMemoryToMemory : Prop :=
  CodedFieldField 0x03 0xC .addMiMi ∧
  (∀ sa da s, s.mem.wf → InRange sa .word → InRange da .word →
    ∃ t, exec (.addMiMi sa da) s = .next t ∧
      WritesWord s t 19 da (s.mem.readWord da.toNat + s.mem.readWord sa.toNat)) ∧
  (∀ sa da s, ¬InRange sa .word → exec (.addMiMi sa da) s = .fault (.memoryFault sa .word .read s.pc)) ∧
  (∀ sa da s, InRange sa .word → ¬InRange da .word →
    exec (.addMiMi sa da) s = .fault (.memoryFault da .word .read s.pc))

/-! ### SUB -/

/-- R161, R162 (the spec's decision D4): SUB takes from a register, an immediate or a register, modulo 2^64. -/
def Obligations.SubImmediateOrRegisterToRegister : Prop :=
  CodedFieldRd 0x04 0x2 .subIR ∧ CodedRsRd 0x04 0x3 .subRR ∧
  (∀ imm rd s, ∃ t, exec (.subIR imm rd) s = .next t ∧ WritesRegister s t 11 rd (seen s 11 rd - imm)) ∧
  (∀ rs rd s, ∃ t, exec (.subRR rs rd) s = .next t ∧ WritesRegister s t 3 rd (seen s 3 rd - seen s 3 rs))

/-- R163, R164 (the spec's decisions D4, D9): SUB takes from a register, the word at an immediate address or the byte,
zero-extended, at the address in a register. -/
def Obligations.SubMemoryToRegister : Prop :=
  CodedFieldRd 0x04 0x6 .subMiR ∧ CodedRsRd 0x04 0x7 .subMrR ∧
  (∀ sa rd s, InRange sa .word →
    ∃ t, exec (.subMiR sa rd) s = .next t ∧ WritesRegister s t 11 rd (seen s 11 rd - s.mem.readWord sa.toNat)) ∧
  (∀ sa rd s, ¬InRange sa .word → exec (.subMiR sa rd) s = .fault (.memoryFault sa .word .read s.pc)) ∧
  (∀ rs rd s, InRange (seen s 3 rs) .byte →
    ∃ t, exec (.subMrR rs rd) s = .next t ∧
      WritesRegister s t 3 rd (seen s 3 rd - zext64 (s.mem.read (seen s 3 rs).toNat))) ∧
  (∀ rs rd s, ¬InRange (seen s 3 rs) .byte →
    exec (.subMrR rs rd) s = .fault (.memoryFault (seen s 3 rs) .byte .read s.pc))

/-- R165, R166 (the spec's decisions D4, D10, D13): SUB takes from the word at the address in a register, an immediate or a
register. The destination is read first, so an address out of range is a read fault. -/
def Obligations.SubImmediateOrRegisterToMemory : Prop :=
  CodedFieldRd 0x04 0xA .subIMr ∧ CodedRsRd 0x04 0xB .subRMr ∧
  (∀ imm rd s, s.mem.wf → InRange (seen s 11 rd) .word →
    ∃ t, exec (.subIMr imm rd) s = .next t ∧
      WritesWord s t 11 (seen s 11 rd) (s.mem.readWord (seen s 11 rd).toNat - imm)) ∧
  (∀ imm rd s, ¬InRange (seen s 11 rd) .word →
    exec (.subIMr imm rd) s = .fault (.memoryFault (seen s 11 rd) .word .read s.pc)) ∧
  (∀ rs rd s, s.mem.wf → InRange (seen s 3 rd) .word →
    ∃ t, exec (.subRMr rs rd) s = .next t ∧
      WritesWord s t 3 (seen s 3 rd) (s.mem.readWord (seen s 3 rd).toNat - seen s 3 rs)) ∧
  (∀ rs rd s, ¬InRange (seen s 3 rd) .word →
    exec (.subRMr rs rd) s = .fault (.memoryFault (seen s 3 rd) .word .read s.pc))

/-- R167 (the spec's decisions D4, D10, D16): SUB takes from a word in memory, a word in memory; both are read before the write,
the source first. -/
def Obligations.SubMemoryToMemory : Prop :=
  CodedFieldField 0x04 0xC .subMiMi ∧
  (∀ sa da s, s.mem.wf → InRange sa .word → InRange da .word →
    ∃ t, exec (.subMiMi sa da) s = .next t ∧
      WritesWord s t 19 da (s.mem.readWord da.toNat - s.mem.readWord sa.toNat)) ∧
  (∀ sa da s, ¬InRange sa .word → exec (.subMiMi sa da) s = .fault (.memoryFault sa .word .read s.pc)) ∧
  (∀ sa da s, InRange sa .word → ¬InRange da .word →
    exec (.subMiMi sa da) s = .fault (.memoryFault da .word .read s.pc))

/-! ### NOT, NOT6, NOP, HALT -/

/-- R181 (the spec's decisions D1, D11, D13): NOT complements all 64 bits of a register, or one byte of memory at an
immediate address or at the address in a register. -/
def Obligations.NotComplements : Prop :=
  CodedR 0x05 0x0 .notReg ∧ CodedField 0x05 0x1 .notMemImm ∧ CodedR 0x05 0x2 .notMemReg ∧
  (∀ kind r : Nibble, 2 < kind.toNat → Raises [0x05, byteOf kind r] (.decodeFault .cmode (byteOf kind r))) ∧
  (∀ r s, ∃ t, exec (.notReg r) s = .next t ∧ WritesRegister s t 2 r (~~~(seen s 2 r))) ∧
  (∀ da s, s.mem.wf → InRange da .byte →
    ∃ t, exec (.notMemImm da) s = .next t ∧ WritesByte s t 10 da (~~~(s.mem.read da.toNat))) ∧
  (∀ da s, ¬InRange da .byte → exec (.notMemImm da) s = .fault (.memoryFault da .byte .read s.pc)) ∧
  (∀ r s, s.mem.wf → InRange (seen s 2 r) .byte →
    ∃ t, exec (.notMemReg r) s = .next t ∧ WritesByte s t 2 (seen s 2 r) (~~~(s.mem.read (seen s 2 r).toNat))) ∧
  (∀ r s, ¬InRange (seen s 2 r) .byte →
    exec (.notMemReg r) s = .fault (.memoryFault (seen s 2 r) .byte .read s.pc))

/-- R182 (the spec's decisions D1, D11, D13): NOT6 complements all 64 bits of a register, or one byte of memory at an
immediate address or at the address in a register. Its effect is that of NOT. -/
def Obligations.Not6Complements : Prop :=
  CodedR 0x06 0x0 .not6Reg ∧ CodedField 0x06 0x1 .not6MemImm ∧ CodedR 0x06 0x2 .not6MemReg ∧
  (∀ kind r : Nibble, 2 < kind.toNat → Raises [0x06, byteOf kind r] (.decodeFault .cmode (byteOf kind r))) ∧
  (∀ r s, ∃ t, exec (.not6Reg r) s = .next t ∧ WritesRegister s t 2 r (~~~(seen s 2 r))) ∧
  (∀ da s, s.mem.wf → InRange da .byte →
    ∃ t, exec (.not6MemImm da) s = .next t ∧ WritesByte s t 10 da (~~~(s.mem.read da.toNat))) ∧
  (∀ da s, ¬InRange da .byte → exec (.not6MemImm da) s = .fault (.memoryFault da .byte .read s.pc)) ∧
  (∀ r s, s.mem.wf → InRange (seen s 2 r) .byte →
    ∃ t, exec (.not6MemReg r) s = .next t ∧ WritesByte s t 2 (seen s 2 r) (~~~(s.mem.read (seen s 2 r).toNat))) ∧
  (∀ r s, ¬InRange (seen s 2 r) .byte →
    exec (.not6MemReg r) s = .fault (.memoryFault (seen s 2 r) .byte .read s.pc)) ∧
  (∀ r s, exec (.not6Reg r) s = exec (.notReg r) s ∧ exec (.not6MemReg r) s = exec (.notMemReg r) s) ∧
  (∀ da s, exec (.not6MemImm da) s = exec (.notMemImm da) s)

/-- R190: NOP moves PC by one and does nothing else. -/
def Obligations.NopOnlyMovesPc : Prop :=
  RunsAs [0x00] .nop ∧
  (∀ s, ∃ t, exec .nop s = .next t ∧ RegistersKept s t ∧ t.reg .pc = s.pc + 1 ∧ ControlKept s t ∧ MemoryKept s t) ∧
  (∀ s, s.status = .running → Config.memCapacity ≤ s.pc.toNat → step s = .fault (.memoryFault s.pc .byte .fetch s.pc))

/-- R191 (the spec's decision D3): HALT sets bit 0 of the flags, leaves every other bit, and moves PC by one. -/
def Obligations.HaltSetsTheHaltBit : Prop :=
  RunsAs [0x01] .halt ∧
  (∀ s, ∃ t, exec .halt s = .next t ∧ t.flags.getLsbD 0 = true ∧ (∀ n, n ≠ 0 → t.flags.getLsbD n = s.flags.getLsbD n) ∧
    RegistersKept s t ∧ t.reg .pc = s.pc + 1 ∧ MemoryKept s t ∧
    t.status = s.status ∧ t.loadOpen = s.loadOpen ∧ t.free = s.free) ∧
  (∀ s, s.status = .running → Config.memCapacity ≤ s.pc.toNat → step s = .fault (.memoryFault s.pc .byte .fetch s.pc))

/-! ### Laws across instructions -/

/-- R183, which the spec derives: complementing the same register (not PC) or the same byte twice, under any mix of the
two opcodes and of the two memory forms, restores it. -/
def Obligations.ComplementingTwiceRestores : Prop :=
  (∀ (op op' : Op1) (r : Reg) s t u, r ≠ .pc → exec (instrCmplReg op r) s = .next t →
    exec (instrCmplReg op' r) t = .next u → u.reg r = s.reg r) ∧
  (∀ (op op' : Op1) (i j : Instr) (addr : Word) s t u, s.mem.wf →
    (i = instrCmplMemImm op addr ∨ ∃ r, i = instrCmplMemReg op r ∧ seen s 2 r = addr) →
    (j = instrCmplMemImm op' addr ∨ ∃ r, j = instrCmplMemReg op' r ∧ seen t 2 r = addr) →
    exec i s = .next t → exec j t = .next u → u.mem = s.mem)

/-- R171, which the spec derives: SUB undoes ADD, in a register and in memory, and SUB of a register from itself is 0. -/
def Obligations.SubtractionUndoesAddition : Prop :=
  (∀ rs rd s t u, rs ≠ rd → rs ≠ .pc → rd ≠ .pc → exec (.addRR rs rd) s = .next t → exec (.subRR rs rd) t = .next u →
    u.reg rd = s.reg rd) ∧
  (∀ v rd s t u, s.mem.wf → rd ≠ .pc → exec (.addIMr v rd) s = .next t → exec (.subIMr v rd) t = .next u →
    u.mem = s.mem) ∧
  (∀ r s t, exec (.subRR r r) s = .next t → t.reg r = 0)

/-- R193, R194, R195, which the spec derives: MOV to PC is an absolute transfer, ADD and SUB to PC are relative to the
address after the instruction; any target is accepted, and one outside the memory faults the next fetch. -/
def Obligations.WritingPcTransfersControl : Prop :=
  (∀ s target, s.status = .running → AtPc s (encode (.movIR target .pc)) →
    ∃ t, step s = .next t ∧ t.pc = target ∧
      (Config.memCapacity ≤ target.toNat → step t = .fault (.memoryFault target .byte .fetch target))) ∧
  (∀ s k, s.status = .running → AtPc s (encode (.addIR k .pc)) → ∃ t, step s = .next t ∧ t.pc = s.pc + 11 + k) ∧
  (∀ s k, s.status = .running → AtPc s (encode (.subIR k .pc)) → ∃ t, step s = .next t ∧ t.pc = s.pc + 11 - k) ∧
  (∀ s r, s.status = .running → r ≠ .pc → AtPc s (encode (.movRR r .pc)) →
    ∃ t, step s = .next t ∧ t.pc = s.reg r) ∧
  (∀ s sa, s.status = .running → InRange sa .word → AtPc s (encode (.movMiR sa .pc)) →
    ∃ t, step s = .next t ∧ t.pc = s.mem.readWord sa.toNat) ∧
  (∀ s r, s.status = .running → InRange (seen s 3 r) .byte → AtPc s (encode (.movMrR r .pc)) →
    ∃ t, step s = .next t ∧ t.pc = zext64 (s.mem.read (seen s 3 r).toNat) ∧ t.pc.toNat ≤ 255)

/-! ### Registers and memory -/

/-- R20, with the table of R21 (the codes: the spec's decisions D1, D2) and R22 in part: seven registers under the codes 0 to 6 and none under 7 to 15; each
is a place of its own, readable and writable, and none is hardwired. -/
def Obligations.TheSevenRegistersHoldWhatIsWritten : Prop :=
  regOfCode 0 = some .a ∧ regOfCode 1 = some .b ∧ regOfCode 2 = some .c ∧ regOfCode 3 = some .d ∧
  regOfCode 4 = some .bp ∧ regOfCode 5 = some .sp ∧ regOfCode 6 = some .pc ∧
  (∀ c : Nibble, 6 < c.toNat → regOfCode c = none) ∧
  (∀ (s : State) r q v, (s.setReg r v).reg q = if q = r then v else s.reg q)

/-- R61: a byte reads as the last one written to it, or as 0x00 if none has been; and a write keeps the canonical form
(the model's own). -/
def Obligations.MemoryReadsTheLastByteWritten : Prop :=
  (∀ x, Memory.read [] x = 0x00) ∧
  (∀ m : Memory, m.wf → ∀ addr v, (m.write addr v).wf ∧
    ∀ x, (m.write addr v).read x = if x = addr then v else m.read x)

/-- R52, R53: words are big-endian in memory and in a word field, the byte at `addr + k` being `v[63-8k:56-8k]`; a word
read is the word those bytes make. -/
def Obligations.WordsAreBigEndian : Prop :=
  (∀ m : Memory, m.wf → ∀ addr v, WordAt (m.writeWord addr v) addr v ∧ (m.writeWord addr v).readWord addr = v ∧
    ∀ x, x < addr ∨ addr + 8 ≤ x → (m.writeWord addr v).read x = m.read x) ∧
  (∀ (m : Memory) addr, WordAt m addr (m.readWord addr) ∧ ∀ v, WordAt m addr v → m.readWord addr = v) ∧
  (∀ (v : Word) k (h : k < (bytesOfWord v).length), (bytesOfWord v)[k] = v.extractLsb' (56 - 8 * k) 8)

/-- R55 (the spec's decision D13): an access of n bytes at an address is made when the address plus n, on naturals, is at
most `MEM_CAPACITY`; otherwise it raises MemoryFault, or is stuck with `BOUNDS_CHECK` off, and no byte is changed. -/
def Obligations.AccessesAreBoundsChecked : Prop :=
  (∀ (s : State) start access addr, s.loadByte start access addr =
    if addr.toNat + 1 ≤ Config.memCapacity then .ok (s.mem.read addr.toNat)
    else .error (.memoryFault addr .byte access start)) ∧
  (∀ (s : State) start access addr, s.loadWord start access addr =
    if addr.toNat + 8 ≤ Config.memCapacity then .ok (s.mem.readWord addr.toNat)
    else .error (.memoryFault addr .word access start)) ∧
  (∀ (s : State) start addr v, s.storeByte start addr v =
    if addr.toNat + 1 ≤ Config.memCapacity then .ok { s with mem := s.mem.write addr.toNat v }
    else .error (.memoryFault addr .byte .write start)) ∧
  (∀ (s : State) start addr v, s.storeWord start addr v =
    if addr.toNat + 8 ≤ Config.memCapacity then .ok { s with mem := s.mem.writeWord addr.toNat v }
    else .error (.memoryFault addr .word .write start)) ∧
  (∀ addr w access start, accessFault false addr w access start = .stuckAccess addr w access start)

/-- R66, which the spec derives: a byte never loaded or written runs as NOP, up to the end of the memory. -/
def Obligations.UnwrittenMemoryRunsAsNop : Prop :=
  ∀ s, s.status = .running → s.mem.read s.pc.toNat = 0x00 →
    (s.pc.toNat < Config.memCapacity → step s = .next (s.closeLoad.advance 1)) ∧
    (Config.memCapacity ≤ s.pc.toNat → step s = .fault (.memoryFault s.pc .byte .fetch s.pc))

/-! ### Creation and the host -/

/-- R36 (the spec's decision D17): the values at creation: memory zero, PC 0, flags 0x00, Running, and the other six
registers whatever the launch gives. -/
def Obligations.CreationGivesTheStatedValues : Prop :=
  ∀ init, (∀ x, (State.create init).mem.read x = 0x00) ∧ (State.create init).pc = 0 ∧ (State.create init).flags = 0x00 ∧
    (State.create init).status = .running ∧
    (State.create init).a = init.a ∧ (State.create init).b = init.b ∧ (State.create init).c = init.c ∧
    (State.create init).d = init.d ∧ (State.create init).bp = init.bp ∧ (State.create init).sp = init.sp

/-- R231 (the spec's decision D21), and R232 (D24): a load writes the bytes at 0 and up and returns how many, and changes
nothing else; it is made once, before the first step; one that does not fit is turned away. -/
def Obligations.LoadWritesTheProgramOnce : Prop :=
  (∀ s bytes, s.mem.wf → s.loadOpen = true → bytes.length ≤ Config.memCapacity →
    ∃ t, loadProgram bytes s = .ok (t, bytes.length) ∧ (∀ k (h : k < bytes.length), t.mem.read k = bytes[k]) ∧
      (∀ x, bytes.length ≤ x → t.mem.read x = s.mem.read x) ∧ (∀ r, t.reg r = s.reg r) ∧ t.flags = s.flags ∧
      t.status = s.status ∧ t.free = s.free ∧ ∀ again, loadProgram again t = .error .loadClosed) ∧
  (∀ s bytes, s.loadOpen = true → Config.memCapacity < bytes.length → loadProgram bytes s = .error .loadTooLong) ∧
  (∀ s bytes, s.status = .running → loadProgram bytes (stepPort s).1 = .error .loadClosed)

/-- R38 (the spec's decisions D13, D31): the host's accesses act on the state they name and change nothing else, and one
turned away changes nothing. -/
def Obligations.HostAccessesActOnWhatTheyName : Prop :=
  (∀ s code r, regOfCode code = some r → regRead code s = .ok (s.reg r) ∧ ∀ v, regWrite code v s = .ok (s.setReg r v)) ∧
  (∀ s code v, 6 < code.toNat →
    regRead code s = .error (.registerFault code) ∧ regWrite code v s = .error (.registerFault code)) ∧
  (∀ s addr v, s.mem.wf → addr.toNat < Config.memCapacity → memReadByte addr s = .ok (s.mem.read addr.toNat) ∧
    ∃ t, memWriteByte addr v s = .ok t ∧ t.mem.read addr.toNat = v ∧ MemoryKeptOutside s t addr.toNat 1 ∧
      (∀ r, t.reg r = s.reg r) ∧ ControlKept s t) ∧
  (∀ s addr v, Config.memCapacity ≤ addr.toNat →
    memReadByte addr s = .error (.memoryFault addr .read) ∧ memWriteByte addr v s = .error (.memoryFault addr .write)) ∧
  (∀ s (bit : Fin 8) v, flagTest bit s = s.flags.getLsbD bit ∧ flagTest bit (flagWrite bit v s) = v ∧
    (∀ other, other ≠ bit → flagTest other (flagWrite bit v s) = flagTest other s) ∧
    flagWrite bit v s = { s with flags := (flagWrite bit v s).flags })

/-- R41 (the spec's decision D18): the host's loop ends normally exactly at the first state between steps with Halt set,
abnormally exactly when a step faults before one is reached, and otherwise goes on. -/
def Obligations.TheHostLoopStopsAtTheFirstHalt : Prop :=
  (∀ n s t, drive n s = .halted t ↔
    ∃ k, k ≤ n ∧ Sys2Proof.core.run k s = .next t ∧ t.flag .halt = true ∧
      ∀ j u, j < k → Sys2Proof.core.run j s = .next u → u.flag .halt = false) ∧
  (∀ n s t f, drive n s = .faulted t f ↔
    ∃ k u, k < n ∧ Sys2Proof.core.run k s = .next u ∧ step u = .fault f ∧ t = (stepPort u).1 ∧
      ∀ j v, j ≤ k → Sys2Proof.core.run j s = .next v → v.flag .halt = false) ∧
  (∀ n s t, drive n s = .running t ↔
    Sys2Proof.core.run n s = .next t ∧
      ∀ j u, j ≤ n → Sys2Proof.core.run j s = .next u → u.flag .halt = false)

/-- R233 (the spec's decisions D17, D18): the boot sequence leaves the program at 0, SP where the host puts it, PC at 0,
Halt clear and every other register at its launch input. -/
def Obligations.BootPlacesTheProgram : Prop :=
  ∀ init program sp, program.length ≤ Config.memCapacity →
    ∃ s, boot init program sp = .ok s ∧ (∀ k (h : k < program.length), s.mem.read k = program[k]) ∧
      (∀ x, program.length ≤ x → s.mem.read x = 0x00) ∧ s.sp = sp ∧ s.pc = 0 ∧ s.flag .halt = false ∧
      s.status = .running ∧ s.a = init.a ∧ s.b = init.b ∧ s.c = init.c ∧ s.d = init.d ∧ s.bp = init.bp
end

