-- ==== Sys2Proof/Laws/Bytes.lean ====
section
/-! SUPPORT. Laws/Bytes.lean: a byte and its nibbles, a word and its bytes. -/

namespace Sys2Proof

@[simp] theorem hiNibble_byteOf (hi lo : Nibble) : hiNibble (byteOf hi lo) = hi := by
  revert hi lo; decide

@[simp] theorem loNibble_byteOf (hi lo : Nibble) : loNibble (byteOf hi lo) = lo := by
  revert hi lo; decide

@[simp] theorem byteOf_nibbles (b : Byte) : byteOf (hiNibble b) (loNibble b) = b := by
  revert b; decide

theorem toNat_append_byte {n : Nat} (x : BitVec n) (y : Byte) : (x ++ y).toNat = x.toNat * 256 + y.toNat := by
  rw [BitVec.toNat_append, ← Nat.shiftLeft_add_eq_or_of_lt y.isLt, Nat.shiftLeft_eq]

theorem toNat_wordOfBytes (b0 b1 b2 b3 b4 b5 b6 b7 : Byte) :
    (wordOfBytes b0 b1 b2 b3 b4 b5 b6 b7).toNat =
      ((((((b0.toNat * 256 + b1.toNat) * 256 + b2.toNat) * 256 + b3.toNat) * 256 + b4.toNat) * 256 + b5.toNat) * 256
        + b6.toNat) * 256 + b7.toNat := by
  refine (toNat_append_byte (n := 56) (b0 ++ b1 ++ b2 ++ b3 ++ b4 ++ b5 ++ b6) b7).trans ?_
  simp only [toNat_append_byte]

theorem toNat_byteAt (v : Word) (k : Nat) : (byteAt v k).toNat = v.toNat / 2 ^ (56 - 8 * k) % 256 := by
  simp [byteAt, Nat.shiftRight_eq_div_pow]

@[simp] theorem wordOfBytes_byteAt (v : Word) :
    wordOfBytes (byteAt v 0) (byteAt v 1) (byteAt v 2) (byteAt v 3) (byteAt v 4) (byteAt v 5) (byteAt v 6) (byteAt v 7)
      = v := by
  apply BitVec.eq_of_toNat_eq
  simp only [toNat_wordOfBytes, toNat_byteAt]
  have := v.isLt
  omega

theorem bytesOfWord_wordOfBytes (b0 b1 b2 b3 b4 b5 b6 b7 : Byte) :
    bytesOfWord (wordOfBytes b0 b1 b2 b3 b4 b5 b6 b7) = [b0, b1, b2, b3, b4, b5, b6, b7] := by
  have := b0.isLt; have := b1.isLt; have := b2.isLt; have := b3.isLt
  have := b4.isLt; have := b5.isLt; have := b6.isLt; have := b7.isLt
  simp only [bytesOfWord, List.cons.injEq, and_true]
  refine ⟨?_, ?_, ?_, ?_, ?_, ?_, ?_, ?_⟩ <;> apply BitVec.eq_of_toNat_eq <;>
    rw [toNat_byteAt, toNat_wordOfBytes] <;> simp only [Nat.reducePow, Nat.reduceMul, Nat.reduceSub] <;> omega

@[simp] theorem length_bytesOfWord (v : Word) : (bytesOfWord v).length = 8 := rfl

theorem getElem_bytesOfWord (v : Word) (k : Nat) (hk : k < (bytesOfWord v).length) : (bytesOfWord v)[k] = byteAt v k := by
  rw [length_bytesOfWord] at hk
  match k, hk with
  | 0, _ | 1, _ | 2, _ | 3, _ | 4, _ | 5, _ | 6, _ | 7, _ => rfl

/-- Eight bytes are the bytes of the word they make, each in its place. -/
theorem byteAt_wordOfBytes (f : Nat → Byte) (k : Nat) (hk : k < 8) :
    byteAt (wordOfBytes (f 0) (f 1) (f 2) (f 3) (f 4) (f 5) (f 6) (f 7)) k = f k := by
  have h := bytesOfWord_wordOfBytes (f 0) (f 1) (f 2) (f 3) (f 4) (f 5) (f 6) (f 7)
  simp only [bytesOfWord, List.cons.injEq, and_true] at h
  obtain ⟨h0, h1, h2, h3, h4, h5, h6, h7⟩ := h
  match k, hk with
  | 0, _ => exact h0
  | 1, _ => exact h1
  | 2, _ => exact h2
  | 3, _ => exact h3
  | 4, _ => exact h4
  | 5, _ => exact h5
  | 6, _ => exact h6
  | 7, _ => exact h7

end Sys2Proof
end

