-- ==== Sys2Proof/Laws/Decode.lean ====
section
/-! SUPPORT. Laws/Decode.lean: the encoding tables are inverse to one another, and the small lemmas of the decoder. -/

namespace Sys2Proof

/-! ### The tables -/

@[simp] theorem regOfCode_codeOfReg (r : Reg) : regOfCode (codeOfReg r) = some r := by cases r <;> rfl

theorem codeOfReg_of_regOfCode {c : Nibble} {r : Reg} (h : regOfCode c = some r) : codeOfReg r = c := by
  revert h; revert c r; decide +revert

/-- A code selects a register exactly when it is at most 6 (R21). -/
theorem regOfCode_eq_none {c : Nibble} : regOfCode c = none ↔ 6 < c.toNat := by
  revert c; decide

theorem regOfCode_isSome {c : Nibble} (h : c.toNat ≤ 6) : ∃ r, regOfCode c = some r := by
  cases hr : regOfCode c with
  | none => exact absurd (regOfCode_eq_none.1 hr) (by omega)
  | some r => exact ⟨r, rfl⟩

@[simp] theorem opcodeOf_byte (o : Opcode) : opcodeOf o.byte = some o := by
  cases o with
  | nop => rfl
  | halt => rfl
  | two op => cases op <;> rfl
  | one op => cases op <;> rfl

theorem byte_of_opcodeOf {b : Byte} {o : Opcode} (h : opcodeOf b = some o) : o.byte = b := by
  have : ∀ b, ∀ o ∈ opcodeOf b, o.byte = b := by decide
  exact this b o h

@[simp] theorem modeTable_nibble (m : Mode) : modeTable m.nibble = some m := by cases m <;> rfl

theorem nibble_of_modeTable {n : Nibble} {m : Mode} (h : modeTable n = some m) : m.nibble = n := by
  have : ∀ n, ∀ m ∈ modeTable n, m.nibble = n := by decide
  exact this n m h

/-- A complement kind that is recognized is Reg, MemImm or MemReg, under its own key (R84). -/
theorem cmplKindTable_cases {k : Nibble} {kind : Kind} (h : cmplKindTable k = some kind) :
    (k = 0 ∧ kind = .reg) ∨ (k = 1 ∧ kind = .memImm) ∨ (k = 2 ∧ kind = .memReg) := by
  have : ∀ k, ∀ kind ∈ cmplKindTable k, (k = 0 ∧ kind = .reg) ∨ (k = 1 ∧ kind = .memImm) ∨ (k = 2 ∧ kind = .memReg) := by
    decide
  exact this k kind h

/-! ### The pieces of the decoder -/

@[simp] theorem takeReg_codeOfReg (r : Reg) : takeReg (codeOfReg r) = .ok r := by simp [takeReg]

theorem takeReg_of_some {c : Nibble} {r : Reg} (h : regOfCode c = some r) : takeReg c = .ok r := by simp [takeReg, h]

theorem takeReg_of_invalid {c : Nibble} (h : 6 < c.toNat) : takeReg c = .error (.register c) := by
  simp [takeReg, regOfCode_eq_none.2 h]

theorem takeReg_ok {c : Nibble} {r : Reg} (h : takeReg c = .ok r) : codeOfReg r = c := by
  unfold takeReg at h
  split at h
  · cases h; exact codeOfReg_of_regOfCode ‹_›
  · cases h

theorem takeReg_error {c : Nibble} {e : Reject} (h : takeReg c = .error e) : e = .register c ∧ 6 < c.toNat := by
  unfold takeReg at h
  split at h
  · cases h
  · cases h; exact ⟨rfl, regOfCode_eq_none.1 ‹_›⟩

@[simp] theorem takeWord_bytesOfWord (offset : Nat) (v : Word) (rest : List Byte) :
    takeWord offset (bytesOfWord v ++ rest) = .ok (v, rest) := by
  simp [takeWord, bytesOfWord]

/-- A field taken is the first eight bytes. -/
theorem takeWord_ok {offset : Nat} {bytes rest : List Byte} {v : Word} (h : takeWord offset bytes = .ok (v, rest)) :
    bytes = bytesOfWord v ++ rest := by
  unfold takeWord at h
  split at h
  · cases h; simp [bytesOfWord_wordOfBytes]
  · cases h

/-- A field is missing when fewer than eight bytes are left. -/
theorem takeWord_error {offset : Nat} {bytes : List Byte} {e : Reject} (h : takeWord offset bytes = .error e) :
    e = .truncated offset .word ∧ bytes.length < 8 := by
  unfold takeWord at h
  split at h
  · cases h
  · rename_i hne
    cases h
    refine ⟨rfl, ?_⟩
    rcases bytes with _ | ⟨b0, _ | ⟨b1, _ | ⟨b2, _ | ⟨b3, _ | ⟨b4, _ | ⟨b5, _ | ⟨b6, _ | ⟨b7, rest⟩⟩⟩⟩⟩⟩⟩⟩ <;>
      first
        | exact absurd rfl (hne b0 b1 b2 b3 b4 b5 b6 b7 rest)
        | (simp only [List.length_cons, List.length_nil]; omega)

/-! ### The decoder at the default parameter -/

/-- With `STRICT_IGNORED_BITS` false the decoder is `parse`. -/
theorem decode_eq_parse (bytes : List Byte) : decode bytes = parse bytes := by
  simp only [decode, decodeWith, Config.strictIgnoredBits, Bool.false_and, Bool.false_eq_true, if_false]
  split <;> simp_all

@[simp] theorem parse_two (op : Op2) (bytes : List Byte) : parse ((Opcode.two op).byte :: bytes) = parseF2 op bytes := by
  simp [parse]

@[simp] theorem parse_one (op : Op1) (bytes : List Byte) : parse ((Opcode.one op).byte :: bytes) = parseF1 op bytes := by
  simp [parse]

@[simp] theorem parseF2_mode (op : Op2) (hi : Nibble) (m : Mode) (bytes : List Byte) :
    parseF2 op (byteOf hi m.nibble :: bytes) = parseF2Operands op m bytes := by
  simp [parseF2]

end Sys2Proof
end

