-- ==== Sys2Proof/Laws/Memory.lean ====
section
/-! SUPPORT. Laws/Memory.lean: read after write, and that every memory operation keeps the canonical form and stays
inside the memory. -/

namespace Sys2Proof.Machine

/-! ### One byte -/

/-- Where no listed address is `x`, `x` reads as unwritten. -/
theorem Memory.read_unlisted {m : Memory} {x : Nat} (h : ∀ y ∈ m, y.1 ≠ x) : m.read x = Config.unlistedByte := by
  induction m with
  | nil => rfl
  | cons y m ih =>
    obtain ⟨k, u⟩ := y
    have hk : k ≠ x := h (k, u) (by simp)
    simp only [Memory.read, hk, if_false]
    exact ih fun z hz => h z (by simp [hz])

theorem Memory.wf_nil : Memory.wf [] := ⟨List.Pairwise.nil, by simp⟩

/-- The canonical form of a listing is that of its tail, with a lower and non-default head. -/
theorem Memory.wf_cons {k : Nat} {u : Byte} {m : Memory} :
    Memory.wf ((k, u) :: m) ↔ (∀ y ∈ m, k < y.1) ∧ u ≠ Config.unlistedByte ∧ m.wf := by
  simp only [Memory.wf, List.pairwise_cons, List.mem_cons, forall_eq_or_imp]
  tauto

theorem Memory.mem_put {addr : Nat} {v : Byte} {rest : Memory} {y : Host.Cell} (h : y ∈ Memory.put addr v rest) :
    y = (addr, v) ∨ y ∈ rest := by
  unfold Memory.put at h
  split at h <;> simp_all

/-- What a write lists is what was listed before and the byte written. -/
theorem Memory.mem_write {m : Memory} {addr : Nat} {v : Byte} {y : Host.Cell} (h : y ∈ m.write addr v) :
    y = (addr, v) ∨ y ∈ m := by
  induction m with
  | nil => exact Memory.mem_put h
  | cons z m ih =>
    obtain ⟨k, u⟩ := z
    simp only [Memory.write] at h
    split at h
    · exact Memory.mem_put h
    · split at h
      · rcases Memory.mem_put h with h | h <;> simp [h]
      · rcases List.mem_cons.1 h with h | h
        · simp [h]
        · rcases ih h with h | h <;> simp [h]

theorem Memory.put_wf {addr : Nat} {v : Byte} {rest : Memory} (h : rest.wf) (hlt : ∀ y ∈ rest, addr < y.1) :
    (Memory.put addr v rest).wf := by
  unfold Memory.put
  split
  · exact h
  · exact Memory.wf_cons.2 ⟨hlt, by assumption, h⟩

/-- A write keeps the canonical form. -/
theorem Memory.write_wf {m : Memory} (h : m.wf) (addr : Nat) (v : Byte) : (m.write addr v).wf := by
  induction m with
  | nil => exact Memory.put_wf h (by simp)
  | cons z m ih =>
    obtain ⟨k, u⟩ := z
    obtain ⟨hlt, hu, hm⟩ := Memory.wf_cons.1 h
    simp only [Memory.write]
    split
    · rename_i hk
      refine Memory.put_wf h fun y hy => ?_
      rcases List.mem_cons.1 hy with rfl | hy
      · exact hk
      · exact hk.trans (hlt y hy)
    · split
      · rename_i _ hk
        exact Memory.put_wf hm fun y hy => hk ▸ hlt y hy
      · refine Memory.wf_cons.2 ⟨fun y hy => ?_, hu, ih hm⟩
        rcases Memory.mem_write hy with rfl | hy
        · simp only; omega
        · exact hlt y hy

/-- A write inside the memory stays inside it. -/
theorem Memory.write_bounded {m : Memory} (h : m.bounded) {addr : Nat} (ha : addr < Config.memCapacity) (v : Byte) :
    (m.write addr v).bounded := by
  intro y hy
  rcases Memory.mem_write hy with rfl | hy
  · exact ha
  · exact h y hy

theorem Memory.read_put {addr : Nat} {v : Byte} {rest : Memory} (hlt : ∀ y ∈ rest, addr < y.1) (x : Nat) :
    (Memory.put addr v rest).read x = if x = addr then v else rest.read x := by
  unfold Memory.put
  split
  · split
    · rename_i hv hx
      rw [hv, Memory.read_unlisted fun y hy => by have := hlt y hy; omega]
    · rfl
  · simp only [Memory.read, eq_comm]

/-- READ AFTER WRITE: the byte written reads back, and every other byte is as it was. -/
theorem Memory.read_write {m : Memory} (h : m.wf) (addr : Nat) (v : Byte) (x : Nat) :
    (m.write addr v).read x = if x = addr then v else m.read x := by
  induction m with
  | nil => exact Memory.read_put (by simp) x
  | cons z m ih =>
    obtain ⟨k, u⟩ := z
    obtain ⟨hlt, _, hm⟩ := Memory.wf_cons.1 h
    simp only [Memory.write]
    split
    · rename_i hk
      refine Memory.read_put (fun y hy => ?_) x
      rcases List.mem_cons.1 hy with rfl | hy
      · exact hk
      · exact hk.trans (hlt y hy)
    · split
      · rename_i _ hk
        rw [Memory.read_put (fun y hy => hk ▸ hlt y hy) x]
        by_cases hx : x = addr
        · simp [hx]
        · rw [if_neg hx, if_neg hx, Memory.read, if_neg (by omega)]
      · simp only [Memory.read, ih hm]
        split <;> split <;> first | rfl | omega

/-! ### Bytes at consecutive addresses -/

theorem Memory.writeList_wf {m : Memory} (h : m.wf) (addr : Nat) (vs : List Byte) : (m.writeList addr vs).wf := by
  induction vs generalizing m addr with
  | nil => exact h
  | cons v vs ih => exact ih (Memory.write_wf h addr v) (addr + 1)

theorem Memory.writeList_bounded {m : Memory} (h : m.bounded) (addr : Nat) (vs : List Byte)
    (ha : addr + vs.length ≤ Config.memCapacity) : (m.writeList addr vs).bounded := by
  induction vs generalizing m addr with
  | nil => exact h
  | cons v vs ih =>
    simp only [List.length_cons] at ha
    exact ih (Memory.write_bounded h (by omega) v) (addr + 1) (by omega)

/-- Outside the bytes written, memory is as it was. -/
theorem Memory.read_writeList_outside {m : Memory} (h : m.wf) (addr : Nat) (vs : List Byte) {x : Nat}
    (hx : x < addr ∨ addr + vs.length ≤ x) : (m.writeList addr vs).read x = m.read x := by
  induction vs generalizing m addr with
  | nil => rfl
  | cons v vs ih =>
    simp only [List.length_cons] at hx
    simp only [Memory.writeList]
    rw [ih (Memory.write_wf h addr v) (addr + 1) (by omega), Memory.read_write h, if_neg (by omega)]

/-- The bytes written read back. -/
theorem Memory.read_writeList_inside {m : Memory} (h : m.wf) (addr : Nat) (vs : List Byte) (k : Nat)
    (hk : k < vs.length) : (m.writeList addr vs).read (addr + k) = vs[k] := by
  induction vs generalizing m addr k with
  | nil => simp at hk
  | cons v vs ih =>
    simp only [Memory.writeList]
    cases k with
    | zero =>
      rw [Memory.read_writeList_outside (Memory.write_wf h addr v) (addr + 1) vs (by omega), Memory.read_write h]
      simp
    | succ k =>
      have := ih (Memory.write_wf h addr v) (addr + 1) k (by simpa using hk)
      simpa [Nat.add_assoc, Nat.add_comm 1 k] using this

/-! ### Words -/

theorem Memory.writeWord_wf {m : Memory} (h : m.wf) (addr : Nat) (v : Word) : (m.writeWord addr v).wf :=
  Memory.writeList_wf h addr _

theorem Memory.writeWord_bounded {m : Memory} (h : m.bounded) {addr : Nat} (v : Word)
    (ha : addr + 8 ≤ Config.memCapacity) : (m.writeWord addr v).bounded :=
  Memory.writeList_bounded h addr _ ha

theorem Memory.read_writeWord_outside {m : Memory} (h : m.wf) (addr : Nat) (v : Word) {x : Nat}
    (hx : x < addr ∨ addr + 8 ≤ x) : (m.writeWord addr v).read x = m.read x :=
  Memory.read_writeList_outside h addr _ hx

theorem Memory.read_writeWord_inside {m : Memory} (h : m.wf) (addr : Nat) (v : Word) {k : Nat} (hk : k < 8) :
    (m.writeWord addr v).read (addr + k) = byteAt v k := by
  have hk' : k < (bytesOfWord v).length := hk
  rw [Memory.writeWord, Memory.read_writeList_inside h addr (bytesOfWord v) k hk', getElem_bytesOfWord]

/-- A word written reads back. -/
theorem Memory.readWord_writeWord {m : Memory} (h : m.wf) (addr : Nat) (v : Word) :
    (m.writeWord addr v).readWord addr = v := by
  have hb := fun k hk => Memory.read_writeWord_inside h addr v (k := k) hk
  have h0 := hb 0 (by omega)
  rw [Nat.add_zero] at h0
  simp only [Memory.readWord, h0, hb 1 (by omega), hb 2 (by omega), hb 3 (by omega), hb 4 (by omega),
    hb 5 (by omega), hb 6 (by omega), hb 7 (by omega), wordOfBytes_byteAt]

/-- The bytes of a word read are the bytes at its addresses. -/
theorem Memory.byteAt_readWord (m : Memory) (addr : Nat) {k : Nat} (hk : k < 8) :
    byteAt (m.readWord addr) k = m.read (addr + k) := by
  exact byteAt_wordOfBytes (fun j => m.read (addr + j)) k hk

/-- A canonical memory is the list of what it reads: two that read alike are equal. -/
theorem Memory.ext_read {m n : Memory} (hm : m.wf) (hn : n.wf) (h : ∀ x, m.read x = n.read x) : m = n := by
  induction m generalizing n with
  | nil =>
    cases n with
    | nil => rfl
    | cons y n =>
      obtain ⟨k, u⟩ := y
      obtain ⟨_, hu, _⟩ := Memory.wf_cons.1 hn
      have := h k
      simp only [Memory.read, if_true] at this
      exact absurd this.symm hu
  | cons x m ih =>
    obtain ⟨k, u⟩ := x
    obtain ⟨hlt, hu, hm'⟩ := Memory.wf_cons.1 hm
    cases n with
    | nil =>
      have := h k
      simp only [Memory.read, if_true] at this
      exact absurd this hu
    | cons y n =>
      obtain ⟨l, w⟩ := y
      obtain ⟨hlt', hw, hn'⟩ := Memory.wf_cons.1 hn
      have hkl : k = l := by
        rcases Nat.lt_trichotomy k l with hkl | hkl | hkl
        · have := h k
          simp only [Memory.read, if_true, if_neg (Nat.ne_of_gt hkl)] at this
          rw [Memory.read_unlisted fun z hz => Nat.ne_of_gt (hkl.trans (hlt' z hz))] at this
          exact absurd this hu
        · exact hkl
        · have := h l
          simp only [Memory.read, if_true, if_neg (Nat.ne_of_gt hkl)] at this
          rw [Memory.read_unlisted fun z hz => Nat.ne_of_gt (hkl.trans (hlt z hz))] at this
          exact absurd this.symm hw
      subst hkl
      have huw : u = w := by simpa [Memory.read] using h k
      subst huw
      rw [ih hm' hn' fun x => ?_]
      by_cases hx : k = x
      · subst hx
        rw [Memory.read_unlisted fun z hz => Nat.ne_of_gt (hlt z hz),
          Memory.read_unlisted fun z hz => Nat.ne_of_gt (hlt' z hz)]
      · simpa [Memory.read, hx] using h x

end Sys2Proof.Machine
end

