-- ==== Sys2Proof/Laws/State.lean ====
section
/-! SUPPORT. Laws/State.lean: one lemma per field per update of the state, so that no later proof unfolds an update, and
the register file's read-after-write law. -/

namespace Sys2Proof.Machine

/-! ### `setReg` -/

/-- Each register is one place of its own, and none is hardwired. -/
theorem State.reg_setReg (s : State) (r q : Reg) (v : Word) :
    (s.setReg r v).reg q = if q = r then v else s.reg q := by
  cases r <;> cases q <;> rfl

@[simp] theorem State.reg_setReg_self (s : State) (r : Reg) (v : Word) : (s.setReg r v).reg r = v := by
  simp [State.reg_setReg]

@[simp] theorem State.reg_setReg_ne (s : State) {r q : Reg} (v : Word) (h : q ≠ r) :
    (s.setReg r v).reg q = s.reg q := by
  simp [State.reg_setReg, h]

@[simp] theorem State.flags_setReg (s : State) (r : Reg) (v : Word) : (s.setReg r v).flags = s.flags := by
  cases r <;> rfl

@[simp] theorem State.mem_setReg (s : State) (r : Reg) (v : Word) : (s.setReg r v).mem = s.mem := by
  cases r <;> rfl

@[simp] theorem State.status_setReg (s : State) (r : Reg) (v : Word) : (s.setReg r v).status = s.status := by
  cases r <;> rfl

@[simp] theorem State.loadOpen_setReg (s : State) (r : Reg) (v : Word) : (s.setReg r v).loadOpen = s.loadOpen := by
  cases r <;> rfl

@[simp] theorem State.free_setReg (s : State) (r : Reg) (v : Word) : (s.setReg r v).free = s.free := by
  cases r <;> rfl

theorem State.reg_pc (s : State) : s.reg .pc = s.pc := rfl

/-! ### `advance` -/

@[simp] theorem State.pc_advance (s : State) (n : Nat) : (s.advance n).pc = s.pc + BitVec.ofNat 64 n := rfl
@[simp] theorem State.flags_advance (s : State) (n : Nat) : (s.advance n).flags = s.flags := rfl
@[simp] theorem State.mem_advance (s : State) (n : Nat) : (s.advance n).mem = s.mem := rfl
@[simp] theorem State.status_advance (s : State) (n : Nat) : (s.advance n).status = s.status := rfl
@[simp] theorem State.loadOpen_advance (s : State) (n : Nat) : (s.advance n).loadOpen = s.loadOpen := rfl
@[simp] theorem State.free_advance (s : State) (n : Nat) : (s.advance n).free = s.free := rfl

theorem State.reg_advance (s : State) (n : Nat) (r : Reg) :
    (s.advance n).reg r = if r = .pc then s.pc + BitVec.ofNat 64 n else s.reg r := by
  cases r <;> rfl

@[simp] theorem State.reg_advance_ne (s : State) (n : Nat) {r : Reg} (h : r ≠ .pc) :
    (s.advance n).reg r = s.reg r := by
  simp [State.reg_advance, h]

@[simp] theorem State.reg_advance_pc (s : State) (n : Nat) : (s.advance n).reg .pc = s.pc + BitVec.ofNat 64 n := rfl

theorem State.advance_advance (s : State) (m n : Nat) : (s.advance m).advance n = s.advance (m + n) := by
  simp [State.advance, BitVec.add_assoc, BitVec.ofNat_add]

/-! ### A memory update -/

@[simp] theorem State.reg_withMem (s : State) (m : Memory) (r : Reg) : { s with mem := m }.reg r = s.reg r := by
  cases r <;> rfl

/-! ### `closeLoad`, `setHalt`, `raiseFault` -/

@[simp] theorem State.pc_closeLoad (s : State) : s.closeLoad.pc = s.pc := rfl
@[simp] theorem State.flags_closeLoad (s : State) : s.closeLoad.flags = s.flags := rfl
@[simp] theorem State.mem_closeLoad (s : State) : s.closeLoad.mem = s.mem := rfl
@[simp] theorem State.status_closeLoad (s : State) : s.closeLoad.status = s.status := rfl
@[simp] theorem State.loadOpen_closeLoad (s : State) : s.closeLoad.loadOpen = false := rfl
@[simp] theorem State.free_closeLoad (s : State) : s.closeLoad.free = s.free := rfl
@[simp] theorem State.reg_closeLoad (s : State) (r : Reg) : s.closeLoad.reg r = s.reg r := by cases r <;> rfl

@[simp] theorem State.pc_setHalt (s : State) : s.setHalt.pc = s.pc := rfl
@[simp] theorem State.mem_setHalt (s : State) : s.setHalt.mem = s.mem := rfl
@[simp] theorem State.status_setHalt (s : State) : s.setHalt.status = s.status := rfl
@[simp] theorem State.loadOpen_setHalt (s : State) : s.setHalt.loadOpen = s.loadOpen := rfl
@[simp] theorem State.free_setHalt (s : State) : s.setHalt.free = s.free := rfl
@[simp] theorem State.reg_setHalt (s : State) (r : Reg) : s.setHalt.reg r = s.reg r := by cases r <;> rfl

@[simp] theorem State.mem_raiseFault (s : State) (f : Fault) : (s.raiseFault f).mem = s.mem := rfl
@[simp] theorem State.flags_raiseFault (s : State) (f : Fault) : (s.raiseFault f).flags = s.flags := rfl
@[simp] theorem State.status_raiseFault (s : State) (f : Fault) : (s.raiseFault f).status = .faulted f := rfl
@[simp] theorem State.loadOpen_raiseFault (s : State) (f : Fault) : (s.raiseFault f).loadOpen = s.loadOpen := rfl
@[simp] theorem State.reg_raiseFault_ne (s : State) (f : Fault) {r : Reg} (h : r ≠ .pc) :
    (s.raiseFault f).reg r = s.reg r := by
  cases r <;> first | rfl | exact absurd rfl h

end Sys2Proof.Machine
end

