-- ==== Sys2Proof/Laws/Operands.lean ====
section
/-! SUPPORT. Laws/Operands.lean: what the accesses, the operand multiplex and each instruction can do, said once. -/

namespace Sys2Proof.Machine

/-! ### Accesses -/

theorem accessFault_default (addr : Word) (w : Width) (access : Access) (start : Word) :
    accessFault Config.boundsCheck addr w access start = .memoryFault addr w access start := rfl

theorem State.loadByte_of_inRange {s : State} {start : Word} {access : Access} {addr : Word} (h : InRange addr .byte) :
    s.loadByte start access addr = .ok (s.mem.read addr.toNat) := if_pos h

theorem State.loadByte_of_not_inRange {s : State} {start : Word} {access : Access} {addr : Word}
    (h : ¬InRange addr .byte) : s.loadByte start access addr = .error (.memoryFault addr .byte access start) := if_neg h

theorem State.loadWord_of_inRange {s : State} {start : Word} {access : Access} {addr : Word} (h : InRange addr .word) :
    s.loadWord start access addr = .ok (s.mem.readWord addr.toNat) := if_pos h

theorem State.loadWord_of_not_inRange {s : State} {start : Word} {access : Access} {addr : Word}
    (h : ¬InRange addr .word) : s.loadWord start access addr = .error (.memoryFault addr .word access start) := if_neg h

theorem State.storeByte_of_inRange {s : State} {start addr : Word} {v : Byte} (h : InRange addr .byte) :
    s.storeByte start addr v = .ok { s with mem := s.mem.write addr.toNat v } := if_pos h

theorem State.storeWord_of_inRange {s : State} {start addr v : Word} (h : InRange addr .word) :
    s.storeWord start addr v = .ok { s with mem := s.mem.writeWord addr.toNat v } := if_pos h

theorem State.storeWord_of_not_inRange {s : State} {start addr v : Word} (h : ¬InRange addr .word) :
    s.storeWord start addr v = .error (.memoryFault addr .word .write start) := if_neg h

theorem State.load_word (s : State) (start addr : Word) : s.load start .word addr = s.loadWord start .read addr := rfl

theorem State.load_byte_of_inRange {s : State} {start addr : Word} (h : InRange addr .byte) :
    s.load start .byte addr = .ok (zext64 (s.mem.read addr.toNat)) := by
  simp [State.load, State.loadByte_of_inRange h, Except.map]

theorem State.load_byte_of_not_inRange {s : State} {start addr : Word} (h : ¬InRange addr .byte) :
    s.load start .byte addr = .error (.memoryFault addr .byte .read start) := by
  simp [State.load, State.loadByte_of_not_inRange h, Except.map]

/-! ### Where a fault comes from -/

/-- A data access out of range raised it, in the instruction at `start`. -/
def FromAccess (start : Word) (f : Fault) : Prop :=
  ∃ addr w access, f = .memoryFault addr w access start ∧ ¬InRange addr w ∧ access ≠ .fetch

theorem State.loadByte_error {s : State} {start addr : Word} {f : Fault} (h : s.loadByte start .read addr = .error f) :
    FromAccess start f := by
  by_cases hr : InRange addr .byte
  · rw [State.loadByte_of_inRange hr] at h; cases h
  · rw [State.loadByte_of_not_inRange hr] at h; cases h; exact ⟨_, _, _, rfl, hr, by decide⟩

theorem State.load_error {s : State} {start addr : Word} {w : Width} {f : Fault} (h : s.load start w addr = .error f) :
    FromAccess start f := by
  cases w with
  | byte =>
    by_cases hr : InRange addr .byte
    · rw [State.load_byte_of_inRange hr] at h; cases h
    · rw [State.load_byte_of_not_inRange hr] at h; cases h; exact ⟨_, _, _, rfl, hr, by decide⟩
  | word =>
    rw [State.load_word] at h
    by_cases hr : InRange addr .word
    · rw [State.loadWord_of_inRange hr] at h; cases h
    · rw [State.loadWord_of_not_inRange hr] at h; cases h; exact ⟨_, _, _, rfl, hr, by decide⟩

/-! ### The operand multiplex -/

theorem resolveSource_error {start : Word} {src : Operand} {s : State} {f : Fault}
    (h : resolveSource start src s = .error f) : FromAccess start f := by
  cases src with
  | reg r => cases h
  | imm v => cases h
  | memImm addr => simp only [resolveSource] at h; exact State.load_error h
  | memReg r => simp only [resolveSource] at h; exact State.load_error h

theorem aluResult_error {op : Op2} {start sv : Word} {loc : Loc} {s : State} {f : Fault}
    (h : aluResult op start sv loc s = .error f) : FromAccess start f := by
  have key : ∀ g : Word → Word, (readDest start loc s).map g = .error f → FromAccess start f := by
    intro g hg
    cases loc with
    | reg r => cases hg
    | mem addr =>
      simp only [readDest] at hg
      cases hl : s.load start Config.arithMemDestWidth addr with
      | ok v => rw [hl] at hg; cases hg
      | error e => rw [hl] at hg; cases hg; exact State.load_error hl
  cases op with
  | mov => cases h
  | add => exact key _ h
  | sub => exact key _ h

/-- A write-back writes the register, or the word in memory and then it is in range. -/
theorem writeDest_ok {start : Word} {loc : Loc} {v : Word} {s t : State} (h : writeDest start loc v s = .ok t) :
    (∃ r, loc = .reg r ∧ t = s.setReg r v) ∨
      ∃ addr, loc = .mem addr ∧ InRange addr .word ∧ t = { s with mem := s.mem.writeWord addr.toNat v } := by
  cases loc with
  | reg r => cases h; exact .inl ⟨r, rfl, rfl⟩
  | mem addr =>
    simp only [writeDest] at h
    by_cases hr : InRange addr .word
    · rw [State.storeWord_of_inRange hr] at h; cases h; exact .inr ⟨addr, rfl, hr, rfl⟩
    · rw [State.storeWord_of_not_inRange hr] at h; cases h

theorem writeDest_error {start : Word} {loc : Loc} {v : Word} {s : State} {f : Fault}
    (h : writeDest start loc v s = .error f) : FromAccess start f := by
  cases loc with
  | reg r => cases h
  | mem addr =>
    simp only [writeDest] at h
    by_cases hr : InRange addr .word
    · rw [State.storeWord_of_inRange hr] at h; cases h
    · rw [State.storeWord_of_not_inRange hr] at h; cases h; exact ⟨_, _, _, rfl, hr, by decide⟩

/-- All a two-operand operation can do: read its source, compute a result, write it to the resolved destination. -/
theorem operate2_ok {op : Op2} {start : Word} {src : Operand} {dst : Dest} {s t : State}
    (h : operate2 op start src dst s = .ok t) :
    ∃ sv v, resolveSource start src s = .ok sv ∧ aluResult op start sv (resolveDest dst s) s = .ok v ∧
      writeDest start (resolveDest dst s) v s = .ok t := by
  simp only [operate2] at h
  split at h
  · cases h
  · rename_i sv hs
    split at h
    · cases h
    · rename_i v hv; exact ⟨sv, v, hs, hv, h⟩

theorem operate2_error {op : Op2} {start : Word} {src : Operand} {dst : Dest} {s : State} {f : Fault}
    (h : operate2 op start src dst s = .error f) : FromAccess start f := by
  simp only [operate2] at h
  split at h
  · cases h; exact resolveSource_error ‹_›
  · split at h
    · cases h; exact aluResult_error ‹_›
    · exact writeDest_error h

/-- All a complement can do: write the register, or the byte in memory and then it is in range. -/
theorem operate1_ok {start : Word} {operand : Dest} {s t : State} (h : operate1 start operand s = .ok t) :
    (∃ r, operand = .reg r ∧ t = s.setReg r (~~~s.reg r)) ∨
      ∃ addr, resolveDest operand s = .mem addr ∧ InRange addr .byte ∧
        t = { s with mem := s.mem.write addr.toNat (~~~s.mem.read addr.toNat) } := by
  simp only [operate1] at h
  split at h
  · rename_i r hr
    cases h
    cases operand <;> cases hr
    exact .inl ⟨r, rfl, rfl⟩
  · rename_i addr ha
    by_cases hr : InRange addr .byte
    · rw [State.loadByte_of_inRange hr] at h
      simp only [State.storeByte_of_inRange hr] at h
      cases h
      exact .inr ⟨addr, ha, hr, rfl⟩
    · rw [State.loadByte_of_not_inRange hr] at h; cases h

theorem operate1_error {start : Word} {operand : Dest} {s : State} {f : Fault} (h : operate1 start operand s = .error f) :
    FromAccess start f := by
  simp only [operate1] at h
  split at h
  · cases h
  · rename_i addr ha
    by_cases hr : InRange addr .byte
    · rw [State.loadByte_of_inRange hr] at h
      simp only [State.storeByte_of_inRange hr] at h
      cases h
    · rw [State.loadByte_of_not_inRange hr] at h; cases h; exact ⟨_, _, _, rfl, hr, by decide⟩

/-! ### Outcomes -/

@[simp] theorem outcomeOf_eq_next {r : Except Fault State} {t : State} : outcomeOf r = .next t ↔ r = .ok t := by
  cases r <;> simp [outcomeOf]

@[simp] theorem outcomeOf_eq_fault {r : Except Fault State} {f : Fault} : outcomeOf r = .fault f ↔ r = .error f := by
  cases r <;> simp [outcomeOf]

@[simp] theorem outcomeOf_ne_refused {r : Except Fault State} {e : Refusal} : outcomeOf r ≠ .refused e := by
  cases r <;> simp [outcomeOf]

theorem seen_eq (s : State) (n : Nat) (r : Reg) : (s.advance n).reg r = seen s n r := by
  cases r <;> rfl

/-! ### What each instruction can do -/

/-- The register a destination operand is, if it is one. -/
def Dest.reg? : Dest → Option Reg
  | .reg r => some r
  | .memImm _ | .memReg _ => none

/-- The address of a destination operand in memory, in an instruction of `len` bytes at `s`, and the width stored. -/
def Dest.store? (s : State) (len width : Nat) : Dest → Option (Word × Nat)
  | .reg _ => none
  | .memImm addr => some (addr, width)
  | .memReg r => some (seen s len r, width)

/-- EVERY INSTRUCTION IS ONE OF FOUR SHAPES: a two-operand operation, a complement, NOP or HALT. -/
theorem exec_shape (i : Instr) :
    (∃ op src dst, i ≠ .halt ∧ (∀ s, exec i s = execute2 op src dst s) ∧
      i.length = 3 + sourceFieldBytes src + destFieldBytes dst ∧ destReg i = dst.reg? ∧
      ∀ s, storeOf i s = dst.store? s i.length 8) ∨
    (∃ operand, i ≠ .halt ∧ (∀ s, exec i s = execute1 operand s) ∧ i.length = 2 + destFieldBytes operand ∧
      destReg i = operand.reg? ∧ ∀ s, storeOf i s = operand.store? s i.length 1) ∨
    i = .nop ∨ i = .halt := by
  cases i
  case nop => simp
  case halt => simp
  case movIR v q => exact .inl ⟨.mov, .imm v, .reg q, nofun, fun _ => rfl, rfl, rfl, fun _ => rfl⟩
  case movRR r q => exact .inl ⟨.mov, .reg r, .reg q, nofun, fun _ => rfl, rfl, rfl, fun _ => rfl⟩
  case movMiR v q => exact .inl ⟨.mov, .memImm v, .reg q, nofun, fun _ => rfl, rfl, rfl, fun _ => rfl⟩
  case movMrR r q => exact .inl ⟨.mov, .memReg r, .reg q, nofun, fun _ => rfl, rfl, rfl, fun _ => rfl⟩
  case movIMr v q => exact .inl ⟨.mov, .imm v, .memReg q, nofun, fun _ => rfl, rfl, rfl, fun _ => rfl⟩
  case movRMr r q => exact .inl ⟨.mov, .reg r, .memReg q, nofun, fun _ => rfl, rfl, rfl, fun _ => rfl⟩
  case movMiMi v w => exact .inl ⟨.mov, .memImm v, .memImm w, nofun, fun _ => rfl, rfl, rfl, fun _ => rfl⟩
  case addIR v q => exact .inl ⟨.add, .imm v, .reg q, nofun, fun _ => rfl, rfl, rfl, fun _ => rfl⟩
  case addRR r q => exact .inl ⟨.add, .reg r, .reg q, nofun, fun _ => rfl, rfl, rfl, fun _ => rfl⟩
  case addMiR v q => exact .inl ⟨.add, .memImm v, .reg q, nofun, fun _ => rfl, rfl, rfl, fun _ => rfl⟩
  case addMrR r q => exact .inl ⟨.add, .memReg r, .reg q, nofun, fun _ => rfl, rfl, rfl, fun _ => rfl⟩
  case addIMr v q => exact .inl ⟨.add, .imm v, .memReg q, nofun, fun _ => rfl, rfl, rfl, fun _ => rfl⟩
  case addRMr r q => exact .inl ⟨.add, .reg r, .memReg q, nofun, fun _ => rfl, rfl, rfl, fun _ => rfl⟩
  case addMiMi v w => exact .inl ⟨.add, .memImm v, .memImm w, nofun, fun _ => rfl, rfl, rfl, fun _ => rfl⟩
  case subIR v q => exact .inl ⟨.sub, .imm v, .reg q, nofun, fun _ => rfl, rfl, rfl, fun _ => rfl⟩
  case subRR r q => exact .inl ⟨.sub, .reg r, .reg q, nofun, fun _ => rfl, rfl, rfl, fun _ => rfl⟩
  case subMiR v q => exact .inl ⟨.sub, .memImm v, .reg q, nofun, fun _ => rfl, rfl, rfl, fun _ => rfl⟩
  case subMrR r q => exact .inl ⟨.sub, .memReg r, .reg q, nofun, fun _ => rfl, rfl, rfl, fun _ => rfl⟩
  case subIMr v q => exact .inl ⟨.sub, .imm v, .memReg q, nofun, fun _ => rfl, rfl, rfl, fun _ => rfl⟩
  case subRMr r q => exact .inl ⟨.sub, .reg r, .memReg q, nofun, fun _ => rfl, rfl, rfl, fun _ => rfl⟩
  case subMiMi v w => exact .inl ⟨.sub, .memImm v, .memImm w, nofun, fun _ => rfl, rfl, rfl, fun _ => rfl⟩
  case notReg x => exact .inr (.inl ⟨.reg x, nofun, fun _ => rfl, rfl, rfl, fun _ => rfl⟩)
  case notMemImm x => exact .inr (.inl ⟨.memImm x, nofun, fun _ => rfl, rfl, rfl, fun _ => rfl⟩)
  case notMemReg x => exact .inr (.inl ⟨.memReg x, nofun, fun _ => rfl, rfl, rfl, fun _ => rfl⟩)
  case not6Reg x => exact .inr (.inl ⟨.reg x, nofun, fun _ => rfl, rfl, rfl, fun _ => rfl⟩)
  case not6MemImm x => exact .inr (.inl ⟨.memImm x, nofun, fun _ => rfl, rfl, rfl, fun _ => rfl⟩)
  case not6MemReg x => exact .inr (.inl ⟨.memReg x, nofun, fun _ => rfl, rfl, rfl, fun _ => rfl⟩)

/-- A destination resolved to a register is that register operand; one resolved to memory is stored to there. -/
theorem resolveDest_reg {dst : Dest} {s : State} {r : Reg} (h : resolveDest dst s = .reg r) : dst.reg? = some r := by
  cases dst <;> cases h
  rfl

theorem store?_of_reg {dst : Dest} {r : Reg} (h : dst.reg? = some r) (u : State) (len width : Nat) :
    dst.store? u len width = none := by
  cases dst <;> first | rfl | cases h

theorem resolveDest_mem {dst : Dest} {s : State} {len : Nat} {addr : Word}
    (h : resolveDest dst (s.advance len) = .mem addr) (width : Nat) :
    dst.reg? = none ∧ dst.store? s len width = some (addr, width) := by
  cases dst <;> cases h <;> simp [Dest.reg?, Dest.store?, seen_eq]

/-- ALL AN INSTRUCTION CAN DO when it answers a next state: PC passes its bytes, and it writes its destination register,
or a word or a byte at the address it stores to and then in range, or nothing (NOP), or the Halt bit (HALT). -/
theorem exec_next {i : Instr} {s t : State} (h : exec i s = .next t) :
    (∃ rd v, destReg i = some rd ∧ storeOf i s = none ∧ i ≠ .halt ∧ t = (s.advance i.length).setReg rd v) ∨
    (∃ addr v, destReg i = none ∧ storeOf i s = some (addr, 8) ∧ i ≠ .halt ∧ InRange addr .word ∧
      t = { s.advance i.length with mem := s.mem.writeWord addr.toNat v }) ∨
    (∃ addr v, destReg i = none ∧ storeOf i s = some (addr, 1) ∧ i ≠ .halt ∧ InRange addr .byte ∧
      t = { s.advance i.length with mem := s.mem.write addr.toNat v }) ∨
    (i = .nop ∧ t = s.advance 1) ∨
    (i = .halt ∧ t = (s.advance 1).setHalt) := by
  obtain ⟨op, src, dst, hne, he, hl, hd, hs⟩ | ⟨operand, hne, he, hl, hd, hs⟩ | rfl | rfl := exec_shape i
  · rw [he, execute2, outcomeOf_eq_next, ← hl] at h
    obtain ⟨_, v, _, _, hw⟩ := operate2_ok h
    obtain ⟨r, hr, rfl⟩ | ⟨addr, ha, hin, rfl⟩ := writeDest_ok hw
    · have hr := resolveDest_reg hr
      exact .inl ⟨r, v, hd.trans hr, (hs s).trans (store?_of_reg hr ..), hne, rfl⟩
    · obtain ⟨hr, hst⟩ := resolveDest_mem ha 8
      exact .inr (.inl ⟨addr, v, hd.trans hr, (hs s).trans hst, hne, hin, rfl⟩)
  · rw [he, execute1, outcomeOf_eq_next, ← hl] at h
    obtain ⟨r, rfl, rfl⟩ | ⟨addr, ha, hin, rfl⟩ := operate1_ok h
    · exact .inl ⟨r, _, hd, hs s, hne, rfl⟩
    · obtain ⟨hr, hst⟩ := resolveDest_mem ha 1
      exact .inr (.inr (.inl ⟨addr, _, hd.trans hr, (hs s).trans hst, hne, hin, rfl⟩))
  · cases h; simp
  · cases h; simp

/-- All that stops an instruction: a data access out of range. -/
theorem exec_fault {i : Instr} {s : State} {f : Fault} (h : exec i s = .fault f) : FromAccess s.pc f := by
  obtain ⟨_, _, _, _, he, _⟩ | ⟨_, _, he, _⟩ | rfl | rfl := exec_shape i
  · rw [he, execute2, outcomeOf_eq_fault] at h
    exact operate2_error h
  · rw [he, execute1, outcomeOf_eq_fault] at h
    exact operate1_error h
  · cases h
  · cases h

/-- Every instruction has a meaning. -/
theorem exec_ne_refused (i : Instr) (s : State) (e : Refusal) : exec i s ≠ .refused e := by
  obtain ⟨_, _, _, _, he, _⟩ | ⟨_, _, he, _⟩ | rfl | rfl := exec_shape i
  · rw [he]; exact outcomeOf_ne_refused
  · rw [he]; exact outcomeOf_ne_refused
  · exact nofun
  · exact nofun

end Sys2Proof.Machine
end

