-- ==== Sys2Proof/Laws/Execute.lean ====
section
/-! SUPPORT. Laws/Execute.lean: the result of the two instruction shapes, on the source value and the destination. -/

namespace Sys2Proof.Machine

/-! ### A word read back -/

theorem wordAt_writeWord {m : Memory} (h : m.wf) (addr : Nat) (v : Word) : WordAt (m.writeWord addr v) addr v :=
  fun _ hk => Memory.read_writeWord_inside h addr v hk

theorem readWord_of_wordAt {m : Memory} {addr : Nat} {v : Word} (h : WordAt m addr v) : m.readWord addr = v := by
  have hb : ∀ k, k < 8 → m.read (addr + k) = byteAt v k := h
  have h0 := hb 0 (by omega)
  rw [Nat.add_zero] at h0
  rw [Memory.readWord, h0, hb 1 (by omega), hb 2 (by omega), hb 3 (by omega), hb 4 (by omega), hb 5 (by omega),
    hb 6 (by omega), hb 7 (by omega)]
  exact wordOfBytes_byteAt v

/-! ### The three effects -/

theorem writesRegister_setReg (s : State) (len : Nat) (rd : Reg) (v : Word) :
    WritesRegister s ((s.advance len).setReg rd v) len rd v :=
  ⟨by simp, fun r h h' => by rw [State.reg_setReg_ne _ _ h, State.reg_advance_ne _ _ h'],
    fun h => by rw [State.reg_setReg_ne _ _ h.symm]; rfl, ⟨by simp, by simp, by simp, by simp⟩, fun x => by simp⟩

theorem writesWord_writeWord {s : State} (h : s.mem.wf) (len : Nat) (addr v : Word) :
    WritesWord s { s.advance len with mem := s.mem.writeWord addr.toNat v } len addr v :=
  ⟨fun r h => by cases r <;> first | rfl | exact absurd rfl h, rfl, ⟨rfl, rfl, rfl, rfl⟩, wordAt_writeWord h _ _,
    fun _ hx => Memory.read_writeWord_outside h _ _ hx⟩

theorem writesByte_write {s : State} (h : s.mem.wf) (len : Nat) (addr : Word) (v : Byte) :
    WritesByte s { s.advance len with mem := s.mem.write addr.toNat v } len addr v :=
  ⟨fun r h => by cases r <;> first | rfl | exact absurd rfl h, rfl, ⟨rfl, rfl, rfl, rfl⟩, by simp [Memory.read_write h],
    fun x hx => by simp only; rw [Memory.read_write h, if_neg (by omega)]⟩

/-! ### Sources and destinations, past the instruction -/

theorem resolveSource_reg (s : State) (len : Nat) (start : Word) (r : Reg) :
    resolveSource start (.reg r) (s.advance len) = .ok (seen s len r) := by
  simp only [resolveSource, seen_eq]

theorem resolveSource_memImm {s : State} {sa : Word} (h : InRange sa .word) (len : Nat) (start : Word) :
    resolveSource start (.memImm sa) (s.advance len) = .ok (s.mem.readWord sa.toNat) :=
  State.loadWord_of_inRange (s := s.advance len) h

theorem resolveSource_memImm_fault {s : State} {sa : Word} (h : ¬InRange sa .word) (len : Nat) (start : Word) :
    resolveSource start (.memImm sa) (s.advance len) = .error (.memoryFault sa .word .read start) :=
  State.loadWord_of_not_inRange (s := s.advance len) h

theorem resolveSource_memReg {s : State} {len : Nat} {r : Reg} (h : InRange (seen s len r) .byte) (start : Word) :
    resolveSource start (.memReg r) (s.advance len) = .ok (zext64 (s.mem.read (seen s len r).toNat)) := by
  have := State.load_byte_of_inRange (s := s.advance len) (start := start) h
  simp only [resolveSource, seen_eq]
  exact this

theorem resolveSource_memReg_fault {s : State} {len : Nat} {r : Reg} (h : ¬InRange (seen s len r) .byte) (start : Word) :
    resolveSource start (.memReg r) (s.advance len) = .error (.memoryFault (seen s len r) .byte .read start) := by
  have := State.load_byte_of_not_inRange (s := s.advance len) (start := start) h
  simp only [resolveSource, seen_eq]
  exact this

theorem resolveDest_memReg (s : State) (len : Nat) (r : Reg) :
    resolveDest (.memReg r) (s.advance len) = .mem (seen s len r) := by
  simp only [resolveDest, seen_eq]

/-! ### The two shapes -/

/-- What a two-operand instruction computes from the destination's value and the source's. -/
def op2Value : Op2 → Word → Word → Word
  | .mov, _, sv => sv
  | .add, dv, sv => dv + sv
  | .sub, dv, sv => dv - sv

theorem execute2_reg {op : Op2} {src : Operand} {s : State} {rd : Reg} {sv : Word} {len : Nat}
    (h : resolveSource s.pc src (s.advance len) = .ok sv) (hl : len = 3 + sourceFieldBytes src + 0) :
    ∃ t, execute2 op src (.reg rd) s = .next t ∧ WritesRegister s t len rd (op2Value op (seen s len rd) sv) := by
  refine ⟨(s.advance len).setReg rd (op2Value op (seen s len rd) sv), ?_, writesRegister_setReg ..⟩
  subst hl
  simp only [execute2, destFieldBytes, operate2, h, outcomeOf_eq_next]
  cases op <;> simp [aluResult, resolveDest, readDest, Except.map, writeDest, op2Value, seen_eq]

theorem execute2_source_fault {op : Op2} {src : Operand} {dst : Dest} {s : State} {f : Fault} {len : Nat}
    (h : resolveSource s.pc src (s.advance len) = .error f)
    (hl : len = 3 + sourceFieldBytes src + destFieldBytes dst) : execute2 op src dst s = .fault f := by
  subst hl
  simp only [execute2, operate2, h, outcomeOf_eq_fault]

theorem execute2_mem {op : Op2} {src : Operand} {dst : Dest} {s : State} {sv addr : Word} {len : Nat}
    (h : resolveSource s.pc src (s.advance len) = .ok sv)
    (hl : len = 3 + sourceFieldBytes src + destFieldBytes dst)
    (hd : resolveDest dst (s.advance len) = .mem addr) (hw : s.mem.wf) (hr : InRange addr .word) :
    ∃ t, execute2 op src dst s = .next t ∧ WritesWord s t len addr (op2Value op (s.mem.readWord addr.toNat) sv) := by
  refine ⟨_, ?_, writesWord_writeWord hw ..⟩
  subst hl
  have h1 := @State.loadWord_of_inRange (s.advance (3 + sourceFieldBytes src + destFieldBytes dst)) s.pc .read addr hr
  simp only [execute2, operate2, h, hd, outcomeOf_eq_next]
  cases op <;>
    simp [aluResult, readDest, Except.map, writeDest, op2Value, Config.arithMemDestWidth, State.load, h1,
      State.storeWord_of_inRange hr]

/-- A destination out of range is a write fault for MOV and a read fault for ADD and SUB, which read it first. -/
theorem execute2_mem_fault {op : Op2} {src : Operand} {dst : Dest} {s : State} {sv addr : Word} {len : Nat}
    (h : resolveSource s.pc src (s.advance len) = .ok sv)
    (hl : len = 3 + sourceFieldBytes src + destFieldBytes dst)
    (hd : resolveDest dst (s.advance len) = .mem addr) (hr : ¬InRange addr .word) :
    execute2 op src dst s = .fault (.memoryFault addr .word (if op = .mov then .write else .read) s.pc) := by
  subst hl
  have h1 :=
    @State.loadWord_of_not_inRange (s.advance (3 + sourceFieldBytes src + destFieldBytes dst)) s.pc .read addr hr
  simp only [execute2, operate2, h, hd, outcomeOf_eq_fault]
  cases op <;>
    simp [aluResult, readDest, Except.map, writeDest, Config.arithMemDestWidth, State.load, h1,
      State.storeWord_of_not_inRange hr]

theorem execute1_reg (r : Reg) (s : State) :
    ∃ t, execute1 (.reg r) s = .next t ∧ WritesRegister s t 2 r (~~~(seen s 2 r)) :=
  ⟨(s.advance 2).setReg r (~~~(seen s 2 r)), by rw [← seen_eq]; rfl, writesRegister_setReg ..⟩

theorem execute1_mem {d : Dest} {s : State} {len : Nat} {addr : Word} (hl : len = 2 + destFieldBytes d)
    (hd : resolveDest d (s.advance len) = .mem addr) (hw : s.mem.wf) (hr : InRange addr .byte) :
    ∃ t, execute1 d s = .next t ∧ WritesByte s t len addr (~~~(s.mem.read addr.toNat)) := by
  refine ⟨_, ?_, writesByte_write hw ..⟩
  subst hl
  have h1 := @State.loadByte_of_inRange (s.advance (2 + destFieldBytes d)) s.pc .read addr hr
  simp [execute1, operate1, hd, h1, State.storeByte_of_inRange hr]

theorem execute1_mem_fault {d : Dest} {s : State} {len : Nat} {addr : Word} (hl : len = 2 + destFieldBytes d)
    (hd : resolveDest d (s.advance len) = .mem addr) (hr : ¬InRange addr .byte) :
    execute1 d s = .fault (.memoryFault addr .byte .read s.pc) := by
  subst hl
  have h1 := @State.loadByte_of_not_inRange (s.advance (2 + destFieldBytes d)) s.pc .read addr hr
  simp [execute1, operate1, hd, h1]

end Sys2Proof.Machine
end

