-- ==== Sys2Proof/Laws/Step.lean ====
section
/-! SUPPORT. Laws/Step.lean: the bytes a step fetches, and all a step can do. -/

namespace Sys2Proof.Machine

/-! ### The window of bytes at PC -/

theorem length_fetchWindow (s : State) :
    (fetchWindow s).length = min maxLength (Config.memCapacity - s.pc.toNat) := by
  simp [fetchWindow]

theorem getElem_fetchWindow (s : State) (k : Nat) (h : k < (fetchWindow s).length) :
    (fetchWindow s)[k] = s.mem.read (s.pc.toNat + k) := by
  simp [fetchWindow]

/-- Bytes that stand at PC, no more than the longest instruction has, are the head of the window. -/
theorem fetchWindow_of_atPc {s : State} {bytes : List Byte} (h : AtPc s bytes) (hl : bytes.length ≤ maxLength) :
    ∃ rest, fetchWindow s = bytes ++ rest := by
  obtain ⟨hcap, hb⟩ := h
  have hw := length_fetchWindow s
  refine ⟨(fetchWindow s).drop bytes.length, ?_⟩
  have ht : (fetchWindow s).take bytes.length = bytes := by
    apply List.ext_getElem
    · rw [List.length_take]; omega
    · intro k h1 h2
      rw [List.getElem_take, getElem_fetchWindow, hb k h2]
  conv_lhs => rw [← List.take_append_drop bytes.length (fetchWindow s), ht]

/-! ### The step -/

theorem step_faulted {s : State} {f : Fault} (h : s.status = .faulted f) : step s = .fault f := by
  simp [step, h]

theorem step_of_decode {s : State} {i : Instr} {rest : List Byte} (hs : s.status = .running)
    (h : decode (fetchWindow s) = .ok (i, rest)) : step s = exec i s.closeLoad := by
  simp [step, hs, h]

theorem step_of_reject {s : State} {e : Reject} (hs : s.status = .running)
    (h : decode (fetchWindow s) = .error e) : step s = rejectOutcome s.pc e := by
  simp [step, hs, h]

theorem rejectOutcome_ne_next (start : Word) (e : Reject) (t : State) : rejectOutcome start e ≠ .next t := by
  cases e <;> simp [rejectOutcome]

/-- ALL A STEP CAN DO when it answers a next state: the core was Running, the bytes at PC decode, and the state is the
instruction's. -/
theorem step_next {s t : State} (h : step s = .next t) :
    s.status = .running ∧ ∃ i rest, decode (fetchWindow s) = .ok (i, rest) ∧ exec i s.closeLoad = .next t := by
  cases hs : s.status with
  | faulted f => rw [step_faulted hs] at h; cases h
  | running =>
    cases hd : decode (fetchWindow s) with
    | error e => rw [step_of_reject hs hd] at h; exact absurd h (rejectOutcome_ne_next _ _ _)
    | ok r =>
      obtain ⟨i, rest⟩ := r
      rw [step_of_decode hs hd] at h
      exact ⟨rfl, i, rest, rfl, h⟩

/-- Bytes that decode to an instruction run as it wherever they stand. -/
theorem runsAs_of_decode {bytes : List Byte} {i : Instr} (hl : bytes.length ≤ maxLength)
    (h : ∀ rest, decode (bytes ++ rest) = .ok (i, rest)) : RunsAs bytes i := by
  intro s hs hb
  obtain ⟨rest, hw⟩ := fetchWindow_of_atPc hb hl
  exact step_of_decode hs (by rw [hw, h])

/-- Bytes that are rejected whatever follows raise the rejection's fault wherever they stand. -/
theorem raises_of_decode {bytes : List Byte} {e : Reject} {f : Word → Fault} (hl : bytes.length ≤ maxLength)
    (h : ∀ rest, decode (bytes ++ rest) = .error e) (hf : ∀ start, rejectOutcome start e = .fault (f start)) :
    Raises bytes f := by
  intro s hs hb
  obtain ⟨rest, hw⟩ := fetchWindow_of_atPc hb hl
  rw [step_of_reject hs (by rw [hw, h]), hf]

end Sys2Proof.Machine
end

