-- ==== Sys2Proof/Laws/Fetch.lean ====
section
/-! SUPPORT. Laws/Fetch.lean: the fetches of Machine/Sequence.lean, `n` bytes into an instruction, on the window of bytes
that `step` decodes. -/

namespace Sys2Proof.Machine

theorem fetchWindow_eq_nil {s : State} (h : Config.memCapacity ≤ s.pc.toNat) : fetchWindow s = [] := by
  apply List.eq_nil_of_length_eq_zero
  rw [length_fetchWindow]
  omega

/-- A fetch is in range exactly when the window holds what it wants. -/
theorem inRange_fetch {u : State} {n : Nat} {w : Width} (hn : n ≤ (fetchWindow u).length)
    (hm : n + bytesOf w ≤ maxLength) :
    InRange (u.pc + BitVec.ofNat 64 n) w ↔ n + bytesOf w ≤ (fetchWindow u).length := by
  rw [length_fetchWindow] at *
  have := u.pc.isLt
  have hb : 1 ≤ bytesOf w := by cases w <;> simp [bytesOf]
  simp only [InRange, BitVec.toNat_add, BitVec.toNat_ofNat]
  simp only [Config.memCapacity, maxLength] at *
  omega

theorem toNat_pc_add {u : State} {n : Nat} (h : n < (fetchWindow u).length) :
    (u.pc + BitVec.ofNat 64 n).toNat = u.pc.toNat + n := by
  have := u.pc.isLt
  rw [length_fetchWindow] at h
  simp only [BitVec.toNat_add, BitVec.toNat_ofNat]
  simp only [Config.memCapacity, maxLength] at *
  omega

theorem fetch8_advance {u : State} {n : Nat} (hn : n ≤ (fetchWindow u).length) (hm : n < maxLength) (start : Word) :
    fetch8 start (u.advance n) =
      match (fetchWindow u).drop n with
      | [] => .error (.memoryFault (u.pc + BitVec.ofNat 64 n) .byte .fetch start)
      | b :: _ => .ok (b, u.advance (n + 1)) := by
  have key := @inRange_fetch u n .byte hn hm
  by_cases h : n + 1 ≤ (fetchWindow u).length
  · rw [List.drop_eq_getElem_cons (by omega), getElem_fetchWindow]
    have h2 := @State.loadByte_of_inRange (u.advance n) start .fetch _ (key.2 h)
    simp only [fetch8, bind, Except.bind, State.pc_advance, h2, toNat_pc_add h, State.mem_advance,
      State.advance_advance]
  · rw [List.drop_eq_nil_of_le (by omega)]
    have h2 := @State.loadByte_of_not_inRange (u.advance n) start .fetch _ (fun hh => h (key.1 hh))
    simp only [fetch8, bind, Except.bind, State.pc_advance, h2]

theorem fetchWord_advance {u : State} {n : Nat} (hn : n ≤ (fetchWindow u).length) (hm : n + 8 ≤ maxLength)
    (start : Word) :
    fetchWord start (u.advance n) =
      match takeWord n ((fetchWindow u).drop n) with
      | .error _ => .error (.memoryFault (u.pc + BitVec.ofNat 64 n) .word .fetch start)
      | .ok (v, _) => .ok (v, u.advance (n + 8)) := by
  have key := @inRange_fetch u n .word hn hm
  cases ht : takeWord n ((fetchWindow u).drop n) with
  | error e =>
    have hl := (takeWord_error ht).2
    rw [List.length_drop] at hl
    have h2 := @State.loadWord_of_not_inRange (u.advance n) start .fetch _
      (fun hh => by have := key.1 hh; simp only [bytesOf] at this; omega)
    simp only [fetchWord, bind, Except.bind, State.pc_advance, h2]
  | ok p =>
    obtain ⟨v, r⟩ := p
    have hw := takeWord_ok ht
    have hl : n + 8 ≤ (fetchWindow u).length := by
      have := congrArg List.length hw
      simp at this; omega
    have h2 := @State.loadWord_of_inRange (u.advance n) start .fetch _ (key.2 hl)
    have h4 : u.mem.readWord (u.pc.toNat + n) = v := by
      apply readWord_of_wordAt
      intro k hk
      rw [Nat.add_assoc, ← getElem_fetchWindow u (n + k) (by omega),
        ← List.getElem_drop (h := by rw [List.length_drop]; omega)]
      simp only [hw]
      rw [List.getElem_append_left (h := by simpa using hk), getElem_bytesOfWord]
      rfl
    simp only [fetchWord, bind, Except.bind, State.pc_advance, h2, toNat_pc_add (show n < (fetchWindow u).length by omega),
      State.mem_advance, State.advance_advance, h4]

/-- What is left after a word field. -/
theorem drop_takeWord {bytes r : List Byte} {n : Nat} {v : Word} (h : takeWord n (bytes.drop n) = .ok (v, r)) :
    r = bytes.drop (n + 8) ∧ n + 8 ≤ bytes.length := by
  have hw := takeWord_ok h
  refine ⟨by rw [← List.drop_drop, hw]; simp [List.drop_append], ?_⟩
  have := congrArg List.length hw
  simp at this; omega

theorem checkReg_eq (start : Word) (c : Nibble) :
    checkReg start c =
      match takeReg c with
      | .ok r => .ok r
      | .error _ => .error (.registerFault c start) := by
  simp only [checkReg, takeReg]
  split <;> simp_all

end Sys2Proof.Machine
end

