-- ==== Sys2Proof/Laws/Parse.lean ====
section
/-! SUPPORT. Laws/Parse.lean: all the decoder can do: the instruction it reads has the bytes as its encoding, but for the
ignored bits; and why it rejects. -/

namespace Sys2Proof.Machine

/-- All an F2 decode can read: a recognized mode byte and a selector, and the encoding of what is read is the bytes, but
for the ignored bits. -/
theorem parseF2_ok {op : Op2} {bytes rest : List Byte} {i : Instr} (h : parseF2 op bytes = .ok (i, rest)) :
    ∃ mode sel tail m, bytes = mode :: sel :: tail ∧ modeTable (loNibble mode) = some m ∧
      encode i ++ rest = (Opcode.two op).byte :: clearIgnoredF2 bytes := by
  match bytes with
  | [] => cases h
  | mode :: bytes =>
    simp only [parseF2] at h
    cases hm : modeTable (loNibble mode) with
    | none => rw [hm] at h; cases h
    | some m =>
      rw [hm] at h
      match bytes with
      | [] => cases h
      | sel :: tail =>
        refine ⟨mode, sel, tail, m, rfl, hm, ?_⟩
        have hn := nibble_of_modeTable hm
        simp only [clearIgnoredF2, hm]
        rw [← hn]
        cases m <;> simp only [parseF2Operands, bind, Except.bind] at h
        case ir | miR | iMr =>
          cases hd : takeReg (loNibble sel) with
          | error e => rw [hd] at h; cases h
          | ok rd =>
            rw [hd] at h
            simp only at h
            cases hw : takeWord 3 tail with
            | error e => rw [hw] at h; cases h
            | ok p =>
              obtain ⟨v, r⟩ := p
              rw [hw] at h
              cases h
              rw [takeWord_ok hw, ← takeReg_ok hd]
              cases op <;> rfl
        case rr | mrR | rMr =>
          cases hs : takeReg (hiNibble sel) with
          | error e => rw [hs] at h; cases h
          | ok rs =>
            rw [hs] at h
            simp only at h
            cases hd : takeReg (loNibble sel) with
            | error e => rw [hd] at h; cases h
            | ok rd =>
              rw [hd] at h
              cases h
              rw [← takeReg_ok hd, ← takeReg_ok hs]
              cases op <;> rfl
        case miMi =>
          cases hw : takeWord 3 tail with
          | error e => rw [hw] at h; cases h
          | ok p =>
            obtain ⟨v, r⟩ := p
            rw [hw] at h
            simp only at h
            cases hw' : takeWord 11 r with
            | error e => rw [hw'] at h; cases h
            | ok p =>
              obtain ⟨w, r'⟩ := p
              rw [hw'] at h
              cases h
              rw [takeWord_ok hw, takeWord_ok hw']
              cases op <;> rfl

/-- All an F1 decode can read. -/
theorem parseF1_ok {op : Op1} {bytes rest : List Byte} {i : Instr} (h : parseF1 op bytes = .ok (i, rest)) :
    ∃ cm tail kind, bytes = cm :: tail ∧ cmplKindTable (hiNibble cm) = some kind ∧
      encode i ++ rest = (Opcode.one op).byte :: clearIgnoredF1 bytes := by
  match bytes with
  | [] => cases h
  | cm :: tail =>
    simp only [parseF1] at h
    cases hk : cmplKindTable (hiNibble cm) with
    | none => rw [hk] at h; cases h
    | some kind =>
      refine ⟨cm, tail, kind, rfl, hk, ?_⟩
      simp only [clearIgnoredF1, hk]
      rw [hk] at h
      obtain ⟨hhi, rfl⟩ | ⟨hhi, rfl⟩ | ⟨hhi, rfl⟩ := cmplKindTable_cases hk <;> simp only [bind, Except.bind] at h
      · cases hr : takeReg (loNibble cm) with
        | error e => rw [hr] at h; cases h
        | ok r =>
          rw [hr] at h; cases h
          have : cm = byteOf 0x0 (codeOfReg r) := by rw [takeReg_ok hr, ← hhi, byteOf_nibbles]
          rw [if_neg (by simp), this]
          cases op <;> rfl
      · cases hw : takeWord 2 tail with
        | error e => rw [hw] at h; cases h
        | ok p =>
          obtain ⟨v, r⟩ := p
          rw [hw] at h; cases h
          rw [takeWord_ok hw, hhi]
          cases op <;> rfl
      · cases hr : takeReg (loNibble cm) with
        | error e => rw [hr] at h; cases h
        | ok r =>
          rw [hr] at h; cases h
          have : cm = byteOf 0x2 (codeOfReg r) := by rw [takeReg_ok hr, ← hhi, byteOf_nibbles]
          rw [if_neg (by simp), this]
          cases op <;> rfl

/-- ALL THE DECODER CAN READ: the encoding of the instruction read, followed by the bytes left, is the bytes with their
ignored bits at 0. -/
theorem parse_ok {bytes rest : List Byte} {i : Instr} (h : parse bytes = .ok (i, rest)) :
    encode i ++ rest = clearIgnored bytes := by
  match bytes with
  | [] => cases h
  | op :: bytes =>
    simp only [parse] at h
    simp only [clearIgnored]
    cases ho : opcodeOf op with
    | none => rw [ho] at h; cases h
    | some o =>
      rw [ho] at h
      rw [← byte_of_opcodeOf ho]
      cases o with
      | nop => cases h; rfl
      | halt => cases h; rfl
      | two op => obtain ⟨_, _, _, _, _, _, he⟩ := parseF2_ok h; exact he
      | one op => obtain ⟨_, _, _, _, _, he⟩ := parseF1_ok h; exact he

theorem clearIgnoredF2_eq_self {bytes : List Byte} (h : ignoredBitsF2 bytes = false) : clearIgnoredF2 bytes = bytes := by
  match bytes with
  | [] => rfl
  | [mode] => rfl
  | mode :: sel :: rest =>
    simp only [ignoredBitsF2, Bool.or_eq_false_iff, bne_eq_false_iff_eq] at h
    simp only [clearIgnoredF2]
    cases hm : modeTable (loNibble mode) with
    | none => rfl
    | some m =>
      rw [hm] at h
      obtain ⟨h1, h2⟩ := h
      simp only [Bool.or_eq_false_iff, Bool.and_eq_false_iff, Bool.not_eq_false', bne_eq_false_iff_eq] at h2
      have e1 : byteOf 0 (loNibble mode) = mode := by rw [← h1, byteOf_nibbles]
      have e2 : (if m.src.usesReg then hiNibble sel else 0) = hiNibble sel := by
        rcases h2.1 with h | h <;> simp [h]
      have e3 : (if m.dst.usesReg then loNibble sel else 0) = loNibble sel := by
        rcases h2.2 with h | h <;> simp [h]
      show byteOf 0 (loNibble mode) :: byteOf _ _ :: rest = _
      rw [e1, e2, e3, byteOf_nibbles]

theorem clearIgnoredF1_eq_self {bytes : List Byte} (h : ignoredBitsF1 bytes = false) : clearIgnoredF1 bytes = bytes := by
  match bytes with
  | [] => rfl
  | cm :: rest =>
    simp only [ignoredBitsF1, Bool.and_eq_false_iff, beq_eq_false_iff_ne, bne_eq_false_iff_eq] at h
    simp only [clearIgnoredF1]
    split
    · rename_i hk
      rcases h with h | h
      · exact absurd hk h
      · rw [← h, byteOf_nibbles]
    · rfl

/-- Clearing the ignored bits changes nothing where none is set. -/
theorem clearIgnored_eq_self {bytes : List Byte} (h : hasIgnoredBits bytes = false) : clearIgnored bytes = bytes := by
  match bytes with
  | [] => rfl
  | op :: bytes =>
    simp only [hasIgnoredBits] at h
    simp only [clearIgnored]
    split at h <;> simp_all [clearIgnoredF2_eq_self, clearIgnoredF1_eq_self]

/-- How far into an instruction a missing byte or word can stand, and that fewer bytes are there than wanted. -/
def MissingIn (bytes : List Byte) (offset : Nat) (w : Width) : Prop :=
  offset ≤ bytes.length ∧ bytes.length < offset + bytesOf w ∧ offset + bytesOf w ≤ maxLength

/-- All that can be missing after the mode byte of an F2 instruction. -/
theorem parseF2Operands_truncated {op : Op2} {m : Mode} {bytes : List Byte} {offset : Nat} {w : Width}
    (h : parseF2Operands op m bytes = .error (.truncated offset w)) (b0 b1 : Byte) :
    MissingIn (b0 :: b1 :: bytes) offset w := by
  match bytes with
  | [] => cases h; exact ⟨by simp, by simp [bytesOf], by decide⟩
  | sel :: tail =>
    have field : ∀ {off : Nat} {l : List Byte} {e : Reject}, takeWord off l = .error e → e = .truncated offset w →
        offset = off ∧ w = .word ∧ l.length < 8 := by
      intro off l e he hw
      obtain ⟨rfl, hl⟩ := takeWord_error he
      cases hw; exact ⟨rfl, rfl, hl⟩
    have reg : ∀ {c : Nibble} {e : Reject}, takeReg c = .error e → e ≠ .truncated offset w := by
      intro c e he hw
      obtain ⟨rfl, _⟩ := takeReg_error he
      cases hw
    cases m <;> simp only [parseF2Operands, bind, Except.bind] at h
    case ir | miR | iMr =>
      cases hd : takeReg (loNibble sel) with
      | error e => rw [hd] at h; cases h; exact absurd rfl (reg hd)
      | ok rd =>
        rw [hd] at h
        simp only at h
        cases hw : takeWord 3 tail with
        | error e =>
          rw [hw] at h; cases h
          obtain ⟨rfl, rfl, hl⟩ := field hw rfl
          exact ⟨by simp, by simp [bytesOf]; omega, by decide⟩
        | ok p => rw [hw] at h; cases h
    case rr | mrR | rMr =>
      cases hs : takeReg (hiNibble sel) with
      | error e => rw [hs] at h; cases h; exact absurd rfl (reg hs)
      | ok rs =>
        rw [hs] at h
        simp only at h
        cases hd : takeReg (loNibble sel) with
        | error e => rw [hd] at h; cases h; exact absurd rfl (reg hd)
        | ok rd => rw [hd] at h; cases h
    case miMi =>
      cases hw : takeWord 3 tail with
      | error e =>
        rw [hw] at h; cases h
        obtain ⟨rfl, rfl, hl⟩ := field hw rfl
        exact ⟨by simp, by simp [bytesOf]; omega, by decide⟩
      | ok p =>
        obtain ⟨v, r⟩ := p
        rw [hw] at h
        simp only at h
        have ht := takeWord_ok hw
        cases hw' : takeWord 11 r with
        | error e =>
          rw [hw'] at h; cases h
          obtain ⟨rfl, rfl, hl⟩ := field hw' rfl
          subst ht
          exact ⟨by simp, by simp [bytesOf]; omega, by decide⟩
        | ok p => rw [hw'] at h; cases h

/-- Bytes end too soon only where fewer are there than the byte or word wanted needs. -/
theorem parse_truncated {bytes : List Byte} {offset : Nat} {w : Width}
    (h : parse bytes = .error (.truncated offset w)) : MissingIn bytes offset w := by
  match bytes with
  | [] => cases h; exact ⟨by simp, by simp [bytesOf], by decide⟩
  | op :: bytes =>
    simp only [parse] at h
    cases ho : opcodeOf op with
    | none => rw [ho] at h; cases h
    | some o =>
      rw [ho] at h
      cases o with
      | nop => cases h
      | halt => cases h
      | two o =>
        match bytes with
        | [] => cases h; exact ⟨by simp, by simp [bytesOf], by decide⟩
        | mode :: tail =>
          simp only [parseF2] at h
          cases hm : modeTable (loNibble mode) with
          | none => rw [hm] at h; cases h
          | some m => rw [hm] at h; exact parseF2Operands_truncated h op mode
      | one o =>
        match bytes with
        | [] => cases h; exact ⟨by simp, by simp [bytesOf], by decide⟩
        | cm :: tail =>
          simp only [parseF1] at h
          cases hk : cmplKindTable (hiNibble cm) with
          | none => rw [hk] at h; cases h
          | some kind =>
            rw [hk] at h
            obtain ⟨_, rfl⟩ | ⟨_, rfl⟩ | ⟨_, rfl⟩ := cmplKindTable_cases hk <;> simp only [bind, Except.bind] at h
            · cases hr : takeReg (loNibble cm) with
              | error e => rw [hr] at h; obtain ⟨rfl, _⟩ := takeReg_error hr; cases h
              | ok r => rw [hr] at h; cases h
            · cases hw : takeWord 2 tail with
              | error e =>
                rw [hw] at h
                obtain ⟨rfl, hl⟩ := takeWord_error hw
                cases h
                exact ⟨by simp, by simp [bytesOf]; omega, by decide⟩
              | ok p => rw [hw] at h; cases h
            · cases hr : takeReg (loNibble cm) with
              | error e => rw [hr] at h; obtain ⟨rfl, _⟩ := takeReg_error hr; cases h
              | ok r => rw [hr] at h; cases h

/-- Where a rejected register code comes from: a used nibble of an F2 selector, or of an F1 cmode byte. -/
theorem parse_register {bytes : List Byte} {c : Nibble} (h : parse bytes = .error (.register c)) :
    6 < c.toNat ∧
      ((∃ op o mode sel tail m, bytes = op :: mode :: sel :: tail ∧ opcodeOf op = some (.two o) ∧
          modeTable (loNibble mode) = some m ∧
          ((m.src.usesReg = true ∧ c = hiNibble sel) ∨ (m.dst.usesReg = true ∧ c = loNibble sel))) ∨
        (∃ op o cm tail kind, bytes = op :: cm :: tail ∧ opcodeOf op = some (.one o) ∧
          cmplKindTable (hiNibble cm) = some kind ∧ kind.usesReg = true ∧ c = loNibble cm)) := by
  match bytes with
  | [] => cases h
  | op :: bytes =>
    simp only [parse] at h
    cases ho : opcodeOf op with
    | none => rw [ho] at h; cases h
    | some o =>
      rw [ho] at h
      cases o with
      | nop => cases h
      | halt => cases h
      | two o =>
        match bytes with
        | [] => cases h
        | [mode] =>
          simp only [parseF2] at h
          cases hm : modeTable (loNibble mode) with
          | none => rw [hm] at h; cases h
          | some m => rw [hm] at h; cases h
        | mode :: sel :: tail =>
          simp only [parseF2] at h
          cases hm : modeTable (loNibble mode) with
          | none => rw [hm] at h; cases h
          | some m =>
            rw [hm] at h
            have h1 := @takeReg_error (hiNibble sel)
            have h2 := @takeReg_error (loNibble sel)
            suffices 6 < c.toNat ∧
                ((m.src.usesReg = true ∧ c = hiNibble sel) ∨ (m.dst.usesReg = true ∧ c = loNibble sel)) from
              ⟨this.1, .inl ⟨op, o, mode, sel, tail, m, rfl, ho, hm, this.2⟩⟩
            cases m <;> simp only [parseF2Operands, bind, Except.bind] at h
            case ir | miR | iMr =>
              cases hd : takeReg (loNibble sel) with
              | error e => rw [hd] at h; cases h; obtain ⟨h2, h3⟩ := h2 hd; cases h2; exact ⟨h3, .inr ⟨rfl, rfl⟩⟩
              | ok rd =>
                rw [hd] at h
                simp only at h
                cases hw : takeWord 3 tail with
                | error e => rw [hw] at h; cases h; cases (takeWord_error hw).1
                | ok p => rw [hw] at h; cases h
            case rr | mrR | rMr =>
              cases hs : takeReg (hiNibble sel) with
              | error e => rw [hs] at h; cases h; obtain ⟨h2, h3⟩ := h1 hs; cases h2; exact ⟨h3, .inl ⟨rfl, rfl⟩⟩
              | ok rs =>
                rw [hs] at h
                simp only at h
                cases hd : takeReg (loNibble sel) with
                | error e => rw [hd] at h; cases h; obtain ⟨h2, h3⟩ := h2 hd; cases h2; exact ⟨h3, .inr ⟨rfl, rfl⟩⟩
                | ok rd => rw [hd] at h; cases h
            case miMi =>
              cases hw : takeWord 3 tail with
              | error e => rw [hw] at h; cases h; cases (takeWord_error hw).1
              | ok p =>
                obtain ⟨v, r⟩ := p
                rw [hw] at h
                simp only at h
                cases hw' : takeWord 11 r with
                | error e => rw [hw'] at h; cases h; cases (takeWord_error hw').1
                | ok p => rw [hw'] at h; cases h
      | one o =>
        match bytes with
        | [] => cases h
        | cm :: tail =>
          simp only [parseF1] at h
          cases hk : cmplKindTable (hiNibble cm) with
          | none => rw [hk] at h; cases h
          | some kind =>
            rw [hk] at h
            suffices 6 < c.toNat ∧ kind.usesReg = true ∧ c = loNibble cm from
              ⟨this.1, .inr ⟨op, o, cm, tail, kind, rfl, ho, hk, this.2⟩⟩
            obtain ⟨_, rfl⟩ | ⟨_, rfl⟩ | ⟨_, rfl⟩ := cmplKindTable_cases hk <;> simp only [bind, Except.bind] at h
            · cases hr : takeReg (loNibble cm) with
              | error e => rw [hr] at h; obtain ⟨rfl, h3⟩ := takeReg_error hr; cases h; exact ⟨h3, rfl, rfl⟩
              | ok r => rw [hr] at h; cases h
            · cases hw : takeWord 2 tail with
              | error e => rw [hw] at h; cases h; cases (takeWord_error hw).1
              | ok p => rw [hw] at h; cases h
            · cases hr : takeReg (loNibble cm) with
              | error e => rw [hr] at h; obtain ⟨rfl, h3⟩ := takeReg_error hr; cases h; exact ⟨h3, rfl, rfl⟩
              | ok r => rw [hr] at h; cases h

/-- What follows a recognized mode byte is rejected for a register code or for want of bytes only. -/
theorem parseF2Operands_error {op : Op2} {m : Mode} {bytes : List Byte} {e : Reject}
    (h : parseF2Operands op m bytes = .error e) : (∃ c, e = .register c) ∨ ∃ offset w, e = .truncated offset w := by
  match bytes with
  | [] => cases h; exact .inr ⟨_, _, rfl⟩
  | sel :: tail =>
    have hr : ∀ {c e}, takeReg c = .error e → ∃ c, e = .register c := fun h => ⟨_, (takeReg_error h).1⟩
    have hw : ∀ {o l e}, takeWord o l = .error e → ∃ o w, e = .truncated o w := fun h => ⟨_, _, (takeWord_error h).1⟩
    cases m <;> simp only [parseF2Operands, bind, Except.bind] at h <;>
      (repeat' split at h) <;> cases h <;> first | exact .inl (hr ‹_›) | exact .inr (hw ‹_›)

/-- Only the strict decoder rejects for an ignored bit. -/
theorem parse_ne_ignoredBits (bytes : List Byte) : parse bytes ≠ .error .ignoredBits := by
  intro h
  have hr : ∀ {c}, takeReg c ≠ .error .ignoredBits := fun h => nomatch (takeReg_error h).1
  have hw : ∀ {o l}, takeWord o l ≠ .error .ignoredBits := fun h => nomatch (takeWord_error h).1
  match bytes with
  | [] => cases h
  | op :: bytes =>
    simp only [parse] at h
    split at h <;> try cases h
    · cases bytes with
      | nil => cases h
      | cons mode bytes =>
        simp only [parseF2] at h
        split at h
        · cases h
        · obtain ⟨c, hc⟩ | ⟨o, w, hc⟩ := parseF2Operands_error h <;> cases hc
    · cases bytes with
      | nil => cases h
      | cons mode bytes =>
        simp only [parseF1, bind, Except.bind] at h
        (repeat' split at h) <;> cases h <;> first | exact hr ‹_› | exact hw ‹_›

end Sys2Proof.Machine
end

