-- ==== Sys2Proof/Laws/PerInstr.lean ====
section
/-! SUPPORT. Laws/PerInstr.lean: the statements made of every instruction as syntax, one lemma per constructor. -/

namespace Sys2Proof.Laws

set_option Elab.async false

/-! ### An encoding is as long as the instruction -/

/-- The encoder emits as many bytes as R86 gives the instruction. -/
def EncodedLength.Statement (i : Instr) : Prop := (encode i).length = i.length

theorem EncodedLength.movIR (imm : Word) (rd : Reg) : EncodedLength.Statement (.movIR imm rd) := rfl

theorem EncodedLength.movRR (rs rd : Reg) : EncodedLength.Statement (.movRR rs rd) := rfl

theorem EncodedLength.movMiR (sa : Word) (rd : Reg) : EncodedLength.Statement (.movMiR sa rd) := rfl

theorem EncodedLength.movMrR (rs rd : Reg) : EncodedLength.Statement (.movMrR rs rd) := rfl

theorem EncodedLength.movIMr (imm : Word) (rd : Reg) : EncodedLength.Statement (.movIMr imm rd) := rfl

theorem EncodedLength.movRMr (rs rd : Reg) : EncodedLength.Statement (.movRMr rs rd) := rfl

theorem EncodedLength.movMiMi (sa da : Word) : EncodedLength.Statement (.movMiMi sa da) := rfl

theorem EncodedLength.addIR (imm : Word) (rd : Reg) : EncodedLength.Statement (.addIR imm rd) := rfl

theorem EncodedLength.addRR (rs rd : Reg) : EncodedLength.Statement (.addRR rs rd) := rfl

theorem EncodedLength.addMiR (sa : Word) (rd : Reg) : EncodedLength.Statement (.addMiR sa rd) := rfl

theorem EncodedLength.addMrR (rs rd : Reg) : EncodedLength.Statement (.addMrR rs rd) := rfl

theorem EncodedLength.addIMr (imm : Word) (rd : Reg) : EncodedLength.Statement (.addIMr imm rd) := rfl

theorem EncodedLength.addRMr (rs rd : Reg) : EncodedLength.Statement (.addRMr rs rd) := rfl

theorem EncodedLength.addMiMi (sa da : Word) : EncodedLength.Statement (.addMiMi sa da) := rfl

theorem EncodedLength.subIR (imm : Word) (rd : Reg) : EncodedLength.Statement (.subIR imm rd) := rfl

theorem EncodedLength.subRR (rs rd : Reg) : EncodedLength.Statement (.subRR rs rd) := rfl

theorem EncodedLength.subMiR (sa : Word) (rd : Reg) : EncodedLength.Statement (.subMiR sa rd) := rfl

theorem EncodedLength.subMrR (rs rd : Reg) : EncodedLength.Statement (.subMrR rs rd) := rfl

theorem EncodedLength.subIMr (imm : Word) (rd : Reg) : EncodedLength.Statement (.subIMr imm rd) := rfl

theorem EncodedLength.subRMr (rs rd : Reg) : EncodedLength.Statement (.subRMr rs rd) := rfl

theorem EncodedLength.subMiMi (sa da : Word) : EncodedLength.Statement (.subMiMi sa da) := rfl

theorem EncodedLength.notReg (r : Reg) : EncodedLength.Statement (.notReg r) := rfl

theorem EncodedLength.notMemImm (da : Word) : EncodedLength.Statement (.notMemImm da) := rfl

theorem EncodedLength.notMemReg (r : Reg) : EncodedLength.Statement (.notMemReg r) := rfl

theorem EncodedLength.not6Reg (r : Reg) : EncodedLength.Statement (.not6Reg r) := rfl

theorem EncodedLength.not6MemImm (da : Word) : EncodedLength.Statement (.not6MemImm da) := rfl

theorem EncodedLength.not6MemReg (r : Reg) : EncodedLength.Statement (.not6MemReg r) := rfl

theorem EncodedLength.nop : EncodedLength.Statement .nop := rfl

theorem EncodedLength.halt : EncodedLength.Statement .halt := rfl

/-! ### Decoding an encoding gives the instruction back -/

/-- Whatever follows an instruction's encoding, the decoder reads the instruction and leaves what follows (R90). -/
def RoundTrip.Statement (i : Instr) : Prop := ∀ rest, decode (encode i ++ rest) = .ok (i, rest)

theorem RoundTrip.movIR (imm : Word) (rd : Reg) : RoundTrip.Statement (.movIR imm rd) := by
  intro rest; simp [decode_eq_parse, encode, encodeF2, parseF2Operands, bind, Except.bind, instrIR]

theorem RoundTrip.movRR (rs rd : Reg) : RoundTrip.Statement (.movRR rs rd) := by
  intro rest; simp [decode_eq_parse, encode, encodeF2, parseF2Operands, bind, Except.bind, instrRR]

theorem RoundTrip.movMiR (sa : Word) (rd : Reg) : RoundTrip.Statement (.movMiR sa rd) := by
  intro rest; simp [decode_eq_parse, encode, encodeF2, parseF2Operands, bind, Except.bind, instrMiR]

theorem RoundTrip.movMrR (rs rd : Reg) : RoundTrip.Statement (.movMrR rs rd) := by
  intro rest; simp [decode_eq_parse, encode, encodeF2, parseF2Operands, bind, Except.bind, instrMrR]

theorem RoundTrip.movIMr (imm : Word) (rd : Reg) : RoundTrip.Statement (.movIMr imm rd) := by
  intro rest; simp [decode_eq_parse, encode, encodeF2, parseF2Operands, bind, Except.bind, instrIMr]

theorem RoundTrip.movRMr (rs rd : Reg) : RoundTrip.Statement (.movRMr rs rd) := by
  intro rest; simp [decode_eq_parse, encode, encodeF2, parseF2Operands, bind, Except.bind, instrRMr]

theorem RoundTrip.movMiMi (sa da : Word) : RoundTrip.Statement (.movMiMi sa da) := by
  intro rest; simp [decode_eq_parse, encode, encodeF2, parseF2Operands, bind, Except.bind, instrMiMi]

theorem RoundTrip.addIR (imm : Word) (rd : Reg) : RoundTrip.Statement (.addIR imm rd) := by
  intro rest; simp [decode_eq_parse, encode, encodeF2, parseF2Operands, bind, Except.bind, instrIR]

theorem RoundTrip.addRR (rs rd : Reg) : RoundTrip.Statement (.addRR rs rd) := by
  intro rest; simp [decode_eq_parse, encode, encodeF2, parseF2Operands, bind, Except.bind, instrRR]

theorem RoundTrip.addMiR (sa : Word) (rd : Reg) : RoundTrip.Statement (.addMiR sa rd) := by
  intro rest; simp [decode_eq_parse, encode, encodeF2, parseF2Operands, bind, Except.bind, instrMiR]

theorem RoundTrip.addMrR (rs rd : Reg) : RoundTrip.Statement (.addMrR rs rd) := by
  intro rest; simp [decode_eq_parse, encode, encodeF2, parseF2Operands, bind, Except.bind, instrMrR]

theorem RoundTrip.addIMr (imm : Word) (rd : Reg) : RoundTrip.Statement (.addIMr imm rd) := by
  intro rest; simp [decode_eq_parse, encode, encodeF2, parseF2Operands, bind, Except.bind, instrIMr]

theorem RoundTrip.addRMr (rs rd : Reg) : RoundTrip.Statement (.addRMr rs rd) := by
  intro rest; simp [decode_eq_parse, encode, encodeF2, parseF2Operands, bind, Except.bind, instrRMr]

theorem RoundTrip.addMiMi (sa da : Word) : RoundTrip.Statement (.addMiMi sa da) := by
  intro rest; simp [decode_eq_parse, encode, encodeF2, parseF2Operands, bind, Except.bind, instrMiMi]

theorem RoundTrip.subIR (imm : Word) (rd : Reg) : RoundTrip.Statement (.subIR imm rd) := by
  intro rest; simp [decode_eq_parse, encode, encodeF2, parseF2Operands, bind, Except.bind, instrIR]

theorem RoundTrip.subRR (rs rd : Reg) : RoundTrip.Statement (.subRR rs rd) := by
  intro rest; simp [decode_eq_parse, encode, encodeF2, parseF2Operands, bind, Except.bind, instrRR]

theorem RoundTrip.subMiR (sa : Word) (rd : Reg) : RoundTrip.Statement (.subMiR sa rd) := by
  intro rest; simp [decode_eq_parse, encode, encodeF2, parseF2Operands, bind, Except.bind, instrMiR]

theorem RoundTrip.subMrR (rs rd : Reg) : RoundTrip.Statement (.subMrR rs rd) := by
  intro rest; simp [decode_eq_parse, encode, encodeF2, parseF2Operands, bind, Except.bind, instrMrR]

theorem RoundTrip.subIMr (imm : Word) (rd : Reg) : RoundTrip.Statement (.subIMr imm rd) := by
  intro rest; simp [decode_eq_parse, encode, encodeF2, parseF2Operands, bind, Except.bind, instrIMr]

theorem RoundTrip.subRMr (rs rd : Reg) : RoundTrip.Statement (.subRMr rs rd) := by
  intro rest; simp [decode_eq_parse, encode, encodeF2, parseF2Operands, bind, Except.bind, instrRMr]

theorem RoundTrip.subMiMi (sa da : Word) : RoundTrip.Statement (.subMiMi sa da) := by
  intro rest; simp [decode_eq_parse, encode, encodeF2, parseF2Operands, bind, Except.bind, instrMiMi]

theorem RoundTrip.notReg (r : Reg) : RoundTrip.Statement (.notReg r) := by
  intro rest; simp [decode_eq_parse, encode, encodeF1, parseF1, cmplKindTable, bind, Except.bind, instrCmplReg]

theorem RoundTrip.notMemImm (da : Word) : RoundTrip.Statement (.notMemImm da) := by
  intro rest; simp [decode_eq_parse, encode, encodeF1, parseF1, cmplKindTable, bind, Except.bind, instrCmplMemImm]

theorem RoundTrip.notMemReg (r : Reg) : RoundTrip.Statement (.notMemReg r) := by
  intro rest; simp [decode_eq_parse, encode, encodeF1, parseF1, cmplKindTable, bind, Except.bind, instrCmplMemReg]

theorem RoundTrip.not6Reg (r : Reg) : RoundTrip.Statement (.not6Reg r) := by
  intro rest; simp [decode_eq_parse, encode, encodeF1, parseF1, cmplKindTable, bind, Except.bind, instrCmplReg]

theorem RoundTrip.not6MemImm (da : Word) : RoundTrip.Statement (.not6MemImm da) := by
  intro rest; simp [decode_eq_parse, encode, encodeF1, parseF1, cmplKindTable, bind, Except.bind, instrCmplMemImm]

theorem RoundTrip.not6MemReg (r : Reg) : RoundTrip.Statement (.not6MemReg r) := by
  intro rest; simp [decode_eq_parse, encode, encodeF1, parseF1, cmplKindTable, bind, Except.bind, instrCmplMemReg]

theorem RoundTrip.nop : RoundTrip.Statement .nop := by
  intro rest; rfl

theorem RoundTrip.halt : RoundTrip.Statement .halt := by
  intro rest; rfl

end Sys2Proof.Laws
end

