-- ==== Sys2Proof/Tests/Slice0.lean ====
section
/-! SUPPORT. Tests/Slice0.lean: the model's own tests. Expected results are those of spec/95_test_vectors.md, or bytes
written out by hand from the encodings of spec/30_encoding.md; and for every statement with hypotheses, states and
operands that meet them (`test_meets_` and the statement's name). -/

namespace Sys2Proof.Tests

open Sys2Proof.Machine

/-! ### Helpers -/

/-- The machine after reset with PC at `start` and bytes there. -/
def startAt (start : Word) (bytes : List Byte) : State :=
  { State.reset with pc := start, mem := Memory.writeList [] start.toNat bytes }

/-- The machine after reset with an instruction at 0 and data elsewhere. -/
def startWith (bytes : List Byte) (addr : Nat) (data : List Byte) : State :=
  { State.reset with mem := (Memory.writeList [] 0 bytes).writeList addr data }

/-- What a test looks at in the state after one step. -/
def after {α : Type} (s : State) (look : State → α) : Option α :=
  match step s with
  | .next t => some (look t)
  | .fault _ | .refused _ => none

/-- The fault of one step. -/
def faultOf (s : State) : Option Fault :=
  match step s with
  | .fault f => some f
  | .next _ | .refused _ => none

/-- What the decoder reads. -/
def reads (bytes : List Byte) : Option (Instr × List Byte) := (decode bytes).toOption

/-- Why the decoder rejects. -/
def rejects (bytes : List Byte) : Option Reject :=
  match decode bytes with
  | .error e => some e
  | .ok _ => none

/-- Bytes that a Running core finds at PC. -/
theorem test_atPc (bytes : List Byte) (h : bytes.length ≤ 19) :
    ∃ s, s.Inv ∧ s.status = .running ∧ AtPc s bytes := by
  have hw : Memory.wf [] := Memory.wf_nil
  refine ⟨startAt 0 bytes, ⟨Memory.writeList_wf hw _ _, Memory.writeList_bounded (by simp [Memory.bounded]) _ _ ?_⟩, rfl, ?_,
    fun k hk => Memory.read_writeList_inside hw 0 bytes k hk⟩
  · simp [Config.memCapacity]; omega
  · simp [startAt, Config.memCapacity]; omega

/-! ### Well-formedness: the check refuses each ill-formed line -/

theorem test_illformed_immediate_destination : Source.wellFormed (.two .mov (.reg .a) (.imm 5)) = false := by decide
theorem test_illformed_pair_imm_to_memImm : Source.wellFormed (.two .add (.imm 1) (.memImm 0x100)) = false := by decide
theorem test_illformed_pair_reg_to_memImm : Source.wellFormed (.two .mov (.reg .a) (.memImm 0x100)) = false := by decide
theorem test_illformed_pair_memReg_to_memImm : Source.wellFormed (.two .sub (.memReg .a) (.memImm 0x100)) = false := by
  decide
theorem test_illformed_pair_memImm_to_memReg : Source.wellFormed (.two .sub (.memImm 0x100) (.memReg .b)) = false := by
  decide
theorem test_illformed_pair_memReg_to_memReg : Source.wellFormed (.two .mov (.memReg .a) (.memReg .b)) = false := by
  decide
theorem test_illformed_complement_of_immediate : Source.wellFormed (.one .not (.imm 5)) = false := by decide
theorem test_wellformed_pair : Source.wellFormed (.two .mov (.memImm 0x100) (.memImm 0x200)) = true := by decide
theorem test_encoder_refuses_illformed : encodeSource (.two .mov (.reg .a) (.memImm 0x100)) = none := by decide

/-! ### Decoding: one word for each constructor, written out from R71, R73, R76, R81, R84; one byte more is left over -/

theorem test_decode_movIR :
    reads [0x02, 0x02, 0x01, 0x01, 0x23, 0x45, 0x67, 0x89, 0xAB, 0xCD, 0xEF, 0xAA] = some (.movIR 0x0123456789ABCDEF .b, [0xAA]) := by decide
theorem test_decode_movRR :
    reads [0x02, 0x03, 0x01, 0xAA] = some (.movRR .a .b, [0xAA]) := by decide
theorem test_decode_movMiR :
    reads [0x02, 0x06, 0x02, 0x01, 0x23, 0x45, 0x67, 0x89, 0xAB, 0xCD, 0xEF, 0xAA] = some (.movMiR 0x0123456789ABCDEF .c, [0xAA]) := by decide
theorem test_decode_movMrR :
    reads [0x02, 0x07, 0x12, 0xAA] = some (.movMrR .b .c, [0xAA]) := by decide
theorem test_decode_movIMr :
    reads [0x02, 0x0A, 0x03, 0x01, 0x23, 0x45, 0x67, 0x89, 0xAB, 0xCD, 0xEF, 0xAA] = some (.movIMr 0x0123456789ABCDEF .d, [0xAA]) := by decide
theorem test_decode_movRMr :
    reads [0x02, 0x0B, 0x45, 0xAA] = some (.movRMr .bp .sp, [0xAA]) := by decide
theorem test_decode_movMiMi :
    reads [0x02, 0x0C, 0x00, 0x01, 0x23, 0x45, 0x67, 0x89, 0xAB, 0xCD, 0xEF, 0xFE, 0xDC, 0xBA, 0x98, 0x76, 0x54, 0x32, 0x10, 0xAA] = some (.movMiMi 0x0123456789ABCDEF 0xFEDCBA9876543210, [0xAA]) := by decide
theorem test_decode_addIR :
    reads [0x03, 0x02, 0x01, 0x01, 0x23, 0x45, 0x67, 0x89, 0xAB, 0xCD, 0xEF, 0xAA] = some (.addIR 0x0123456789ABCDEF .b, [0xAA]) := by decide
theorem test_decode_addRR :
    reads [0x03, 0x03, 0x01, 0xAA] = some (.addRR .a .b, [0xAA]) := by decide
theorem test_decode_addMiR :
    reads [0x03, 0x06, 0x02, 0x01, 0x23, 0x45, 0x67, 0x89, 0xAB, 0xCD, 0xEF, 0xAA] = some (.addMiR 0x0123456789ABCDEF .c, [0xAA]) := by decide
theorem test_decode_addMrR :
    reads [0x03, 0x07, 0x12, 0xAA] = some (.addMrR .b .c, [0xAA]) := by decide
theorem test_decode_addIMr :
    reads [0x03, 0x0A, 0x03, 0x01, 0x23, 0x45, 0x67, 0x89, 0xAB, 0xCD, 0xEF, 0xAA] = some (.addIMr 0x0123456789ABCDEF .d, [0xAA]) := by decide
theorem test_decode_addRMr :
    reads [0x03, 0x0B, 0x45, 0xAA] = some (.addRMr .bp .sp, [0xAA]) := by decide
theorem test_decode_addMiMi :
    reads [0x03, 0x0C, 0x00, 0x01, 0x23, 0x45, 0x67, 0x89, 0xAB, 0xCD, 0xEF, 0xFE, 0xDC, 0xBA, 0x98, 0x76, 0x54, 0x32, 0x10, 0xAA] = some (.addMiMi 0x0123456789ABCDEF 0xFEDCBA9876543210, [0xAA]) := by decide
theorem test_decode_subIR :
    reads [0x04, 0x02, 0x01, 0x01, 0x23, 0x45, 0x67, 0x89, 0xAB, 0xCD, 0xEF, 0xAA] = some (.subIR 0x0123456789ABCDEF .b, [0xAA]) := by decide
theorem test_decode_subRR :
    reads [0x04, 0x03, 0x01, 0xAA] = some (.subRR .a .b, [0xAA]) := by decide
theorem test_decode_subMiR :
    reads [0x04, 0x06, 0x02, 0x01, 0x23, 0x45, 0x67, 0x89, 0xAB, 0xCD, 0xEF, 0xAA] = some (.subMiR 0x0123456789ABCDEF .c, [0xAA]) := by decide
theorem test_decode_subMrR :
    reads [0x04, 0x07, 0x12, 0xAA] = some (.subMrR .b .c, [0xAA]) := by decide
theorem test_decode_subIMr :
    reads [0x04, 0x0A, 0x03, 0x01, 0x23, 0x45, 0x67, 0x89, 0xAB, 0xCD, 0xEF, 0xAA] = some (.subIMr 0x0123456789ABCDEF .d, [0xAA]) := by decide
theorem test_decode_subRMr :
    reads [0x04, 0x0B, 0x45, 0xAA] = some (.subRMr .bp .sp, [0xAA]) := by decide
theorem test_decode_subMiMi :
    reads [0x04, 0x0C, 0x00, 0x01, 0x23, 0x45, 0x67, 0x89, 0xAB, 0xCD, 0xEF, 0xFE, 0xDC, 0xBA, 0x98, 0x76, 0x54, 0x32, 0x10, 0xAA] = some (.subMiMi 0x0123456789ABCDEF 0xFEDCBA9876543210, [0xAA]) := by decide
theorem test_decode_notReg :
    reads [0x05, 0x06, 0xAA] = some (.notReg .pc, [0xAA]) := by decide
theorem test_decode_notMemImm :
    reads [0x05, 0x10, 0x01, 0x23, 0x45, 0x67, 0x89, 0xAB, 0xCD, 0xEF, 0xAA] = some (.notMemImm 0x0123456789ABCDEF, [0xAA]) := by decide
theorem test_decode_notMemReg :
    reads [0x05, 0x21, 0xAA] = some (.notMemReg .b, [0xAA]) := by decide
theorem test_decode_not6Reg :
    reads [0x06, 0x06, 0xAA] = some (.not6Reg .pc, [0xAA]) := by decide
theorem test_decode_not6MemImm :
    reads [0x06, 0x10, 0x01, 0x23, 0x45, 0x67, 0x89, 0xAB, 0xCD, 0xEF, 0xAA] = some (.not6MemImm 0x0123456789ABCDEF, [0xAA]) := by decide
theorem test_decode_not6MemReg :
    reads [0x06, 0x21, 0xAA] = some (.not6MemReg .b, [0xAA]) := by decide
theorem test_decode_nop :
    reads [0x00, 0xAA] = some (.nop, [0xAA]) := by decide
theorem test_decode_halt :
    reads [0x01, 0xAA] = some (.halt, [0xAA]) := by decide

theorem test_decode_ignored_bits :
    reads [0x02, 0xF3, 0x01] = some (.movRR .a .b, []) ∧
      reads [0x05, 0x1F, 0, 0, 0, 0, 0, 0, 1, 0] = some (.notMemImm 0x100, []) := by decide
theorem test_reject_opcodes : rejects [0x07] = some (.opcode 0x07) ∧ rejects [0xFF] = some (.opcode 0xFF) := by decide
theorem test_reject_mode_before_selector : rejects [0x02, 0x09, 0x99] = some (.mode 0x09) := by decide
theorem test_reject_cmode : rejects [0x05, 0x30] = some (.cmode 0x30) ∧ rejects [0x05, 0xF0] = some (.cmode 0xF0) := by
  decide
theorem test_reject_rs_before_rd :
    rejects [0x02, 0x03, 0x97] = some (.register 9) ∧ rejects [0x02, 0x03, 0x17] = some (.register 7) := by decide
theorem test_reject_rd_before_field : rejects [0x02, 0x0A, 0xF7] = some (.register 7) := by decide
theorem test_reject_complement_code : rejects [0x06, 0x2F] = some (.register 15) := by decide

/-! ### The opcode table's rows, by the table's own numbers (log entry 5) -/

theorem test_table_two_operand_rows :
    decodeTableWord 16 0x0202 = some (.movIR 0 .a) ∧ decodeTableWord 16 0x0203 = some (.movRR .a .a) ∧
    decodeTableWord 16 0x030C = some (.addMiMi 0 0) ∧ decodeTableWord 16 0x040B = some (.subRMr .a .a) := by decide
theorem test_table_other_rows :
    decodeTableWord 16 0x0510 = some (.notMemImm 0) ∧ decodeTableWord 16 0x0620 = some (.not6MemReg .a) ∧
    decodeTableWord 8 0x00 = some .nop ∧ decodeTableWord 8 0x01 = some .halt := by decide
theorem test_table_third_byte : decodeTableWord 24 0x120203 = some (.movRR .b .c) := by decide
theorem test_withFetchWord_runs :
    after (State.reset.withFetchWord 8 0x01) (fun t => (t.flags, t.pc)) = some (0x01, 1) ∧
    after (State.reset.withFetchWord 16 0x0506) (fun t => t.pc) = some 0xFFFFFFFFFFFFFFFD := by decide

/-! ### Steps: vectors of spec/95_test_vectors.md sections 2.2 to 2.5 -/

theorem test_movIR :
    after (startAt 0 [0x02, 0x02, 0x00, 0xFF, 0xFF, 0xFF, 0xFF, 0xFF, 0xFF, 0xFF, 0xFF])
      (fun t => (t.a, t.pc)) = some (0xFFFFFFFFFFFFFFFF, 11) := by decide
theorem test_movRR_reads_advanced_pc :
    after (startAt 0x10 [0x02, 0x03, 0x60])
      (fun t => (t.a, t.pc)) = some (0x13, 0x13) := by decide
theorem test_movRR :
    after ({ startAt 0 [0x02, 0x03, 0x01] with a := 0x1234 })
      (fun t => (t.a, t.b)) = some (0x1234, 0x1234) := by decide
theorem test_movMiR_last_word :
    after (startWith [0x02, 0x06, 0x00, 0, 0, 0, 0, 0, 0xFF, 0xFF, 0xF8] 0xFFFFF8 [1, 2, 3, 4, 5, 6, 7, 8])
      (fun t => t.a) = some 0x0102030405060708 := by decide
theorem test_movMrR_same_register :
    after ({ startWith [0x02, 0x07, 0x11] 0x100 [0x11, 0x22, 0x33, 0x44, 0x55, 0x66, 0x77, 0x88] with b := 0x100 })
      (fun t => t.b) = some 0x11 := by decide
theorem test_movIMr :
    after ({ startAt 0 [0x02, 0x0A, 0x01, 0, 0, 0, 0, 0, 0, 0x11, 0x22] with b := 0x200 })
      (fun t => (t.mem.read 0x205, t.mem.read 0x206, t.mem.read 0x207)) = some (0x00, 0x11, 0x22) := by decide
theorem test_movRMr_same_register :
    after ({ startAt 0 [0x02, 0x0B, 0x00] with a := 0x300 })
      (fun t => (t.mem.read 0x306, t.mem.read 0x307)) = some (0x03, 0x00) := by decide
theorem test_movMiMi_overlap :
    after (startWith [0x02, 0x0C, 0x00, 0, 0, 0, 0, 0, 0, 0x01, 0x00, 0, 0, 0, 0, 0, 0, 0x01, 0x01] 0x100 [0x11, 0x22, 0x33, 0x44, 0x55, 0x66, 0x77, 0x88, 0x99])
      (fun t => (t.mem.readWord 0x101, t.pc)) = some (0x1122334455667788, 19) := by decide
theorem test_movMiR_fault :
    faultOf (startAt 0 [0x02, 0x06, 0x00, 0, 0, 0, 0, 0, 0xFF, 0xFF, 0xF9]) =
      some (.memoryFault 0xFFFFF9 .word .read 0) := by decide
theorem test_movMrR_fault :
    faultOf ({ startAt 0 [0x02, 0x07, 0x10] with b := 0x1000000 }) =
      some (.memoryFault 0x1000000 .byte .read 0) := by decide
theorem test_movRMr_fault :
    faultOf ({ startAt 0 [0x02, 0x0B, 0x01] with b := 0xFFFFFC }) =
      some (.memoryFault 0xFFFFFC .word .write 0) := by decide
theorem test_field_past_the_end :
    faultOf (startAt 0xFFFFFA [0x02, 0x02, 0x00]) =
      some (.memoryFault 0xFFFFFD .word .fetch 0xFFFFFA) := by decide
theorem test_addIR_wraps :
    after ({ startAt 0 [0x03, 0x02, 0x00, 0, 0, 0, 0, 0, 0, 0, 1] with a := 0xFFFFFFFFFFFFFFFF })
      (fun t => (t.a, t.flags)) = some (0, 0) := by decide
theorem test_addRR_doubles :
    after ({ startAt 0 [0x03, 0x03, 0x00] with a := 0x8000000000000001 })
      (fun t => t.a) = some 2 := by decide
theorem test_addMiR :
    after ({ startWith [0x03, 0x06, 0x02, 0, 0, 0, 0, 0, 0, 0x01, 0x00] 0x100 [0xFF, 0xFF, 0xFF, 0xFF, 0xFF, 0xFF, 0xFF, 0xFF] with c := 2 })
      (fun t => t.c) = some 1 := by decide
theorem test_addMrR :
    after ({ startWith [0x03, 0x07, 0x12] 0x100 [0xFF] with b := 0x100, c := 1 })
      (fun t => t.c) = some 0x100 := by decide
theorem test_addIMr :
    after ({ startWith [0x03, 0x0A, 0x01, 0, 0, 0, 0, 0, 0, 0, 0xFF] 0x207 [1] with b := 0x200 })
      (fun t => t.mem.readWord 0x200) = some 0x100 := by decide
theorem test_addRMr :
    after ({ startWith [0x03, 0x0B, 0x01] 0x107 [2] with a := 3, b := 0x100 })
      (fun t => t.mem.readWord 0x100) = some 5 := by decide
theorem test_addMiMi_same_address :
    after (startWith [0x03, 0x0C, 0x00, 0, 0, 0, 0, 0, 0, 0x01, 0x00, 0, 0, 0, 0, 0, 0, 0x01, 0x00] 0x107 [3])
      (fun t => t.mem.readWord 0x100) = some 6 := by decide
theorem test_addIMr_reads_its_destination_first :
    faultOf ({ startAt 0 [0x03, 0x0A, 0x01, 0, 0, 0, 0, 0, 0, 0, 0] with b := 0xFFFFF9 }) =
      some (.memoryFault 0xFFFFF9 .word .read 0) := by decide
theorem test_subIR_wraps :
    after (startAt 0 [0x04, 0x02, 0x00, 0, 0, 0, 0, 0, 0, 0, 1])
      (fun t => t.a) = some 0xFFFFFFFFFFFFFFFF := by decide
theorem test_subRR_destination_is_the_minuend :
    after ({ startAt 0 [0x04, 0x03, 0x01] with a := 12, b := 7 })
      (fun t => (t.a, t.b)) = some (12, 0xFFFFFFFFFFFFFFFB) := by decide
theorem test_subMiR :
    after ({ startWith [0x04, 0x06, 0x02, 0, 0, 0, 0, 0, 0, 0x01, 0x00] 0x107 [0x10] with c := 5 })
      (fun t => t.c) = some 0xFFFFFFFFFFFFFFF5 := by decide
theorem test_subMrR :
    after ({ startWith [0x04, 0x07, 0x12] 0x100 [0x01] with b := 0x100 })
      (fun t => t.c) = some 0xFFFFFFFFFFFFFFFF := by decide
theorem test_subIMr :
    after ({ startAt 0 [0x04, 0x0A, 0x01, 0, 0, 0, 0, 0, 0, 0, 2] with b := 0x200 })
      (fun t => (t.mem.read 0x200, t.mem.read 0x207)) = some (0xFF, 0xFE) := by decide
theorem test_subRMr :
    after ({ startWith [0x04, 0x0B, 0x01] 0x107 [5] with a := 3, b := 0x100 })
      (fun t => t.mem.readWord 0x100) = some 2 := by decide
theorem test_subMiMi :
    after ({ startWith [0x04, 0x0C, 0x00, 0, 0, 0, 0, 0, 0, 0x01, 0x00, 0, 0, 0, 0, 0, 0, 0x02, 0x00] 0x107 [7] with
      mem := (startWith [0x04, 0x0C, 0x00, 0, 0, 0, 0, 0, 0, 0x01, 0x00, 0, 0, 0, 0, 0, 0, 0x02, 0x00] 0x107 [7]).mem.write 0x207 8 })
      (fun t => (t.mem.readWord 0x100, t.mem.readWord 0x200)) = some (7, 1) := by decide
theorem test_subMiMi_source_first :
    faultOf (startAt 0 [0x04, 0x0C, 0x00, 0, 0, 0, 0, 0x01, 0x00, 0x00, 0x00, 0, 0, 0, 0, 0xFF, 0x00, 0x00, 0x00]) =
      some (.memoryFault 0x1000000 .word .read 0) := by decide
theorem test_notReg :
    after ({ startAt 0 [0x05, 0x00] with a := 0x0123456789ABCDEF })
      (fun t => t.a) = some 0xFEDCBA9876543210 := by decide
theorem test_notReg_pc :
    after (startAt 0 [0x05, 0x06])
      (fun t => (t.pc, faultOf t)) = some (0xFFFFFFFFFFFFFFFD, some (.memoryFault 0xFFFFFFFFFFFFFFFD .byte .fetch 0xFFFFFFFFFFFFFFFD)) := by decide
theorem test_notMemImm :
    after (startAt 0 [0x05, 0x10, 0, 0, 0, 0, 0, 0, 0x01, 0x00])
      (fun t => (t.mem.read 0x100, t.mem.read 0x101, t.pc)) = some (0xFF, 0x00, 10) := by decide
theorem test_notMemReg_one_byte :
    after ({ startWith [0x05, 0x21] 0x100 [0x5A, 0x11] with b := 0x100 })
      (fun t => (t.mem.read 0x100, t.mem.read 0x101)) = some (0xA5, 0x11) := by decide
theorem test_not6Reg :
    after ({ startAt 0 [0x06, 0x02] with c := 0x00000000FFFFFFFF })
      (fun t => t.c) = some 0xFFFFFFFF00000000 := by decide
theorem test_not6MemImm :
    after (startWith [0x06, 0x10, 0, 0, 0, 0, 0, 0, 0x01, 0x00] 0x100 [0x11])
      (fun t => t.mem.read 0x100) = some 0xEE := by decide
theorem test_not6MemReg :
    after ({ startWith [0x06, 0x21] 0x100 [0x11] with b := 0x100 })
      (fun t => t.mem.read 0x100) = some 0xEE := by decide
theorem test_notMemImm_fault :
    faultOf (startAt 0 [0x05, 0x10, 0, 0, 0, 0, 0x01, 0x00, 0x00, 0x00]) =
      some (.memoryFault 0x1000000 .byte .read 0) := by decide
theorem test_nop :
    after (startAt 5 [0x00])
      (fun t => (t.pc, t.mem)) = some (6, []) := by decide
theorem test_nop_at_the_end :
    after (startAt 0xFFFFFF [0x00])
      (fun t => (t.pc, faultOf t)) = some (0x1000000, some (.memoryFault 0x1000000 .byte .fetch 0x1000000)) := by decide
theorem test_halt :
    after ({ startAt 0 [0x01] with flags := 0x1E })
      (fun t => (t.flags, t.pc)) = some (0x1F, 1) := by decide
theorem test_halt_does_not_stop :
    after (startAt 0 [0x01, 0x01])
      (fun t => (t.flags, after t fun u => (u.flags, u.pc))) = some (0x01, some (0x01, 2)) := by decide
theorem test_sub_pc_loops :
    after (startAt 0 [0x04, 0x02, 0x06, 0, 0, 0, 0, 0, 0, 0, 0x0B])
      (fun t => t.pc) = some 0 := by decide
theorem test_fault_of_scenario_E8 : faultOf (startAt 0 [0x07]) = some (.decodeFault .opcode 0x07 0) := by decide
theorem test_fault_of_scenario_E9 : faultOf (startAt 0 [0x02, 0x03, 0x90]) = some (.registerFault 9 0) := by decide

/-! ### Operands that meet the hypotheses of the statements -/

/-- Which of these runs: reset runs NOP; here are a state that faults and one that has faulted. -/
def bad : State := startAt 0 [0x07]

def dead : State := { State.reset with status := .faulted (.decodeFault .opcode 0x07 0) }

/-- Register B holds a value. -/
def holdingB (v : Word) : State := { State.reset with b := v }

theorem test_next (i : Instr) (s : State) (h : (match exec i s with | .next _ => true | _ => false) = true) :
    ∃ t, exec i s = .next t := by
  cases he : exec i s with
  | next t => exact ⟨t, rfl⟩
  | fault f => rw [he] at h; cases h
  | refused e => rw [he] at h; cases h

theorem test_meets_OpcodeByteSelectsTheInstruction :
    reads [0x06, 0x06] = some (.not6Reg .pc, []) ∧ 6 < (0x07 : Byte).toNat ∧ 6 < (0xFF : Byte).toNat := by decide

theorem test_meets_ModeNibbleBitsNameTheOperandKinds :
    modeTable 0x2 = some .ir ∧ modeTable 0xC = some .miMi := by decide

theorem test_meets_UnrecognizedBytesRaiseDecodeFault :
    (6 < (0x07 : Byte).toNat ∧ ∃ s, s.Inv ∧ s.status = .running ∧ AtPc s [0x07]) ∧
    (loNibble 0xF0 = 0x0 ∧ loNibble 0x0F = 0xF ∧ (∃ s, s.Inv ∧ s.status = .running ∧ AtPc s [0x02, 0xF0]) ∧
      ∃ s, s.Inv ∧ s.status = .running ∧ AtPc s [0x04, 0x0F]) ∧
    (2 < (hiNibble 0x30).toNat ∧ 2 < (hiNibble 0xFF).toNat ∧
      (∃ s, s.Inv ∧ s.status = .running ∧ AtPc s [0x05, 0x30]) ∧
      ∃ s, s.Inv ∧ s.status = .running ∧ AtPc s [0x06, 0xFF]) ∧
    (∃ s, s.Inv ∧ s.status = .running ∧ AtPc s [0x00]) ∧ ∃ s, s.Inv ∧ s.status = .running ∧ AtPc s [0x01] :=
  ⟨⟨by decide, test_atPc _ (by decide)⟩, ⟨by decide, by decide, test_atPc _ (by decide), test_atPc _ (by decide)⟩,
    ⟨by decide, by decide, test_atPc _ (by decide), test_atPc _ (by decide)⟩, test_atPc _ (by decide),
    test_atPc _ (by decide)⟩

theorem test_meets_UsedInvalidCodesRaiseRegisterFault :
    (modeTable (loNibble 0x03) = some .rr ∧ 6 < (hiNibble 0x70).toNat ∧
      ∃ s, s.Inv ∧ s.status = .running ∧ AtPc s [0x02, 0x03, 0x70]) ∧
    ((hiNibble 0x67).toNat ≤ 6 ∧ 6 < (loNibble 0x67).toNat ∧
      ∃ s, s.Inv ∧ s.status = .running ∧ AtPc s [0x02, 0x03, 0x67]) ∧
    (modeTable (loNibble 0x0A) = some .iMr ∧ Kind.usesReg .imm = false ∧ 6 < (loNibble 0xFF).toNat ∧
      ∃ s, s.Inv ∧ s.status = .running ∧ AtPc s [0x02, 0x0A, 0xFF]) ∧
    (cmplKindTable (hiNibble 0x27) = some .memReg ∧ 6 < (loNibble 0x27).toNat ∧
      ∃ s, s.Inv ∧ s.status = .running ∧ AtPc s [0x05, 0x27]) ∧
    faultOf (startAt 0 [0x02, 0x03, 0x67]) = some (.registerFault 7 0) :=
  ⟨⟨by decide, by decide, test_atPc _ (by decide)⟩, ⟨by decide, by decide, test_atPc _ (by decide)⟩,
    ⟨by decide, by decide, by decide, test_atPc _ (by decide)⟩, ⟨by decide, by decide, test_atPc _ (by decide)⟩,
    by decide⟩

theorem test_meets_FetchPastTheEndRaisesMemoryFault :
    rejects (fetchWindow (startAt 0xFFFFFF [0x02])) = some (.truncated 1 .byte) ∧
    rejects (fetchWindow (startAt 0xFFFFFE [0x05, 0x10])) = some (.truncated 2 .word) ∧
    Config.memCapacity ≤ (startAt 0x1000000 []).pc.toNat ∧ (startAt 0x1000000 []).status = .running := by decide

theorem test_meets_EncodeAndDecodeAreInverse :
    reads [0x02, 0x03, 0x01, 0xAA] = some (.movRR .a .b, [0xAA]) ∧ hasIgnoredBits [0x02, 0x03, 0x01, 0xAA] = false := by
  decide

theorem test_meets_LengthIsKnownFromTwoBytes :
    reads [0x00] = some (.nop, []) ∧
      reads [0x05, 0x10, 0, 0, 0, 0, 0, 0, 1, 0, 0xAA] = some (.notMemImm 0x100, [0xAA]) := by decide

theorem test_meets_IgnoredBitsAreIgnored :
    reads [0x02, 0xF3, 0x01] = some (.movRR .a .b, []) ∧ hasIgnoredBits [0x02, 0xF3, 0x01] = true ∧
      reads [0x02, 0x03, 0x01] = some (.movRR .a .b, []) ∧ hasIgnoredBits [0x02, 0x03, 0x01] = false := by decide

theorem test_meets_EncoderEmitsTheFormatsAndRefusesOtherPairs :
    mnemonicByte (.two .sub (.reg .a) (.reg .b)) = 0x04 ∧ mnemonicByte (.one .not6 (.reg .a)) = 0x06 := by decide

theorem test_meets_StepRunsTheDecodedInstruction :
    (startAt 0 [0x05, 0x06]).status = .running ∧
    (reads (fetchWindow (startAt 0 [0x05, 0x06]))).map (·.1) = some (.notReg .pc) ∧
    (Instr.notReg .pc).wellFormed = true ∧
    (startAt 0xFFFFED []).pc.toNat + 18 < Config.memCapacity := by decide

theorem test_meets_StepIsTheFetchDecodeExecuteSequence :
    State.reset.status = .running ∧ bad.status = .running := by decide

theorem test_meets_StepPortAnswersRunningOrFaulted :
    (after State.reset fun t => t.pc) = some 1 ∧ faultOf bad = some (.decodeFault .opcode 0x07 0) ∧
      bad.status = .running ∧ dead.status = .faulted (.decodeFault .opcode 0x07 0) := by decide

theorem test_meets_FaultedIsTerminal :
    dead.status = .faulted (.decodeFault .opcode 0x07 0) ∧ faultOf bad = some (.decodeFault .opcode 0x07 0) ∧
      InRange 0xFFFFFF .byte := by decide

theorem test_meets_OnlyHaltWritesTheFlags :
    (∃ t, exec .halt State.reset = .next t) ∧ (Instr.nop ≠ .halt ∧ ∃ t, exec .nop State.reset = .next t) ∧
      ({ startAt 0 [0x05, 0x06] with flags := 0x01 } : State).flag .halt = true ∧
      (reads (fetchWindow { startAt 0 [0x05, 0x06] with flags := 0x01 })).isSome = true :=
  ⟨⟨_, rfl⟩, ⟨by decide, _, rfl⟩, by decide, by decide⟩

theorem test_meets_TheFlagsAreNeverRead :
    (after State.reset fun t => t.pc) = some 1 ∧ faultOf bad = some (.decodeFault .opcode 0x07 0) := by decide

theorem test_meets_OnlyTheNamedRegisterIsWritten :
    (∃ t, exec (.movIR 5 .a) State.reset = .next t) ∧ Reg.b ≠ .pc ∧ destReg (.movIR 5 .a) ≠ some .b :=
  ⟨⟨_, rfl⟩, by decide, by decide⟩

theorem test_meets_OnlyTheStoredBytesChange :
    State.reset.mem.wf ∧ (∃ t, exec (.movIR 5 .a) State.reset = .next t) ∧
    storeOf (.movIR 5 .a) State.reset = none ∧
    (∃ t, exec (.movIMr 5 .b) (holdingB 0xFFFFF8) = .next t) ∧
    storeOf (.movIMr 5 .b) (holdingB 0xFFFFF8) = some (0xFFFFF8, 8) ∧
    (∃ t, exec (.notMemReg .b) (holdingB 0xFFFFFF) = .next t) ∧
    storeOf (.notMemReg .b) (holdingB 0xFFFFFF) = some (0xFFFFFF, 1) :=
  ⟨by decide, ⟨_, rfl⟩, by decide, test_next _ _ (by decide), by decide, test_next _ _ (by decide), by decide⟩

theorem test_meets_PcIsPastTheInstructionUnlessWritten :
    (∃ t, exec (.movIR 5 .a) State.reset = .next t) ∧ destReg (.movIR 5 .a) ≠ some .pc ∧
    InRange ((startAt 0xFFFFFC []).pc + 3) .byte ∧ (startAt 0xFFFFFC []).mem.wf ∧
    InRange ((startAt 0xFFFFED []).pc + 11) .word ∧ InRange ((startAt 0xFFFFFD []).pc + 2) .byte :=
  ⟨⟨_, rfl⟩, by decide, by decide, by decide, by decide, by decide⟩

theorem test_meets_UnnamedRegistersAreNeitherReadNorWritten :
    Reg.sp ≠ .pc ∧ Reg.sp ∉ namedRegs (.movMrR .b .c) ∧ (∃ t, exec (.movMrR .b .c) State.reset = .next t) ∧
      exec (.movMrR .b .c) (holdingB 0x1000000) = .fault (.memoryFault 0x1000000 .byte .read 0) :=
  ⟨by decide, by decide, test_next _ _ (by decide), rfl⟩

theorem test_meets_EveryFaultIsOneOfThree :
    faultOf bad = some (.decodeFault .opcode 0x07 0) ∧
    faultOf (startAt 0 [0x02, 0x03, 0x90]) = some (.registerFault 9 0) ∧
    faultOf (startAt 0x1000000 []) = some (.memoryFault 0x1000000 .byte .fetch 0x1000000) := by decide

theorem test_meets_AFaultLeavesEverythingButPc :
    bad.status = .running ∧ faultOf bad = some (.decodeFault .opcode 0x07 0) := by decide

theorem test_meets_EveryStepKeepsTheInvariant :
    (holdingB 0xFFFFF8).Inv ∧
      after { startAt 0 [0x02, 0x0B, 0x11] with b := 0xFFFFF8 } (fun t => t.mem.read 0xFFFFFF) = some 0xF8 := by decide

theorem test_meets_EveryPortKeepsTheInvariant :
    State.reset.Inv ∧ (loadProgram [0x01] State.reset).toOption.isSome = true ∧
      (regWrite 6 5 State.reset).toOption.isSome = true ∧
      (memWriteByte 0xFFFFFF 5 State.reset).toOption.isSome = true := by decide

theorem test_meets_MovFromImmediateOrRegisterToRegister :
    6 < (0x7 : Nibble).toNat ∧ (0x6 : Nibble).toNat ≤ 6 ∧ regOfCode 0x6 = some .pc ∧
    (∃ s, s.Inv ∧ s.status = .running ∧ AtPc s [0x02, 0xF2, 0xF7]) ∧
    (∃ s, s.Inv ∧ s.status = .running ∧ AtPc s [0x02, 0xF2, 0xF6, 0, 0, 0, 0, 0, 0, 1, 0]) ∧
    (∃ s, s.Inv ∧ s.status = .running ∧ AtPc s [0x02, 0xF3, 0x76]) ∧
    (∃ s, s.Inv ∧ s.status = .running ∧ AtPc s [0x02, 0xF3, 0x67]) ∧
    (∃ s, s.Inv ∧ s.status = .running ∧ AtPc s [0x02, 0xF3, 0x66]) :=
  ⟨by decide, by decide, by decide, test_atPc _ (by decide), test_atPc _ (by decide), test_atPc _ (by decide), test_atPc _ (by decide), test_atPc _ (by decide)⟩

theorem test_meets_MovFromMemoryToRegister :
    6 < (0x7 : Nibble).toNat ∧ (0x6 : Nibble).toNat ≤ 6 ∧ regOfCode 0x6 = some .pc ∧
    InRange 0xFFFFF8 .word ∧ ¬InRange 0xFFFFF9 .word ∧
    InRange (seen (holdingB 0xFFFFFF) 3 .b) .byte ∧ ¬InRange (seen (holdingB 0x1000000) 3 .b) .byte ∧
    (∃ s, s.Inv ∧ s.status = .running ∧ AtPc s [0x02, 0xF6, 0xF7]) ∧
    (∃ s, s.Inv ∧ s.status = .running ∧ AtPc s [0x02, 0xF6, 0xF6, 0, 0, 0, 0, 0, 0, 1, 0]) ∧
    (∃ s, s.Inv ∧ s.status = .running ∧ AtPc s [0x02, 0xF7, 0x76]) ∧
    (∃ s, s.Inv ∧ s.status = .running ∧ AtPc s [0x02, 0xF7, 0x67]) ∧
    (∃ s, s.Inv ∧ s.status = .running ∧ AtPc s [0x02, 0xF7, 0x66]) :=
  ⟨by decide, by decide, by decide, by decide, by decide, by decide, by decide, test_atPc _ (by decide), test_atPc _ (by decide), test_atPc _ (by decide), test_atPc _ (by decide), test_atPc _ (by decide)⟩

theorem test_meets_MovFromImmediateOrRegisterToMemory :
    6 < (0x7 : Nibble).toNat ∧ (0x6 : Nibble).toNat ≤ 6 ∧ regOfCode 0x6 = some .pc ∧
    (holdingB 0xFFFFF8).mem.wf ∧
    InRange (seen (holdingB 0xFFFFF8) 11 .b) .word ∧ ¬InRange (seen (holdingB 0xFFFFF9) 11 .b) .word ∧
    InRange (seen (holdingB 0xFFFFF8) 3 .b) .word ∧ ¬InRange (seen (holdingB 0xFFFFF9) 3 .b) .word ∧
    (∃ s, s.Inv ∧ s.status = .running ∧ AtPc s [0x02, 0xFA, 0xF7]) ∧
    (∃ s, s.Inv ∧ s.status = .running ∧ AtPc s [0x02, 0xFA, 0xF6, 0, 0, 0, 0, 0, 0, 1, 0]) ∧
    (∃ s, s.Inv ∧ s.status = .running ∧ AtPc s [0x02, 0xFB, 0x76]) ∧
    (∃ s, s.Inv ∧ s.status = .running ∧ AtPc s [0x02, 0xFB, 0x67]) ∧
    (∃ s, s.Inv ∧ s.status = .running ∧ AtPc s [0x02, 0xFB, 0x66]) :=
  ⟨by decide, by decide, by decide, by decide, by decide, by decide, by decide, by decide, test_atPc _ (by decide), test_atPc _ (by decide), test_atPc _ (by decide), test_atPc _ (by decide), test_atPc _ (by decide)⟩

theorem test_meets_MovFromMemoryToMemory :
    State.reset.mem.wf ∧ InRange 0xFFFFF8 .word ∧ ¬InRange 0xFFFFF9 .word ∧
    ∃ s, s.Inv ∧ s.status = .running ∧ AtPc s [0x02, 0xFC, 0xFF, 0, 0, 0, 0, 0, 0, 1, 0, 0, 0, 0, 0, 0, 0, 1, 0] :=
  ⟨by decide, by decide, by decide, test_atPc _ (by decide)⟩

theorem test_meets_AddImmediateOrRegisterToRegister :
    6 < (0x7 : Nibble).toNat ∧ (0x6 : Nibble).toNat ≤ 6 ∧ regOfCode 0x6 = some .pc ∧
    (∃ s, s.Inv ∧ s.status = .running ∧ AtPc s [0x03, 0xF2, 0xF7]) ∧
    (∃ s, s.Inv ∧ s.status = .running ∧ AtPc s [0x03, 0xF2, 0xF6, 0, 0, 0, 0, 0, 0, 1, 0]) ∧
    (∃ s, s.Inv ∧ s.status = .running ∧ AtPc s [0x03, 0xF3, 0x76]) ∧
    (∃ s, s.Inv ∧ s.status = .running ∧ AtPc s [0x03, 0xF3, 0x67]) ∧
    (∃ s, s.Inv ∧ s.status = .running ∧ AtPc s [0x03, 0xF3, 0x66]) :=
  ⟨by decide, by decide, by decide, test_atPc _ (by decide), test_atPc _ (by decide), test_atPc _ (by decide), test_atPc _ (by decide), test_atPc _ (by decide)⟩

theorem test_meets_AddMemoryToRegister :
    6 < (0x7 : Nibble).toNat ∧ (0x6 : Nibble).toNat ≤ 6 ∧ regOfCode 0x6 = some .pc ∧
    InRange 0xFFFFF8 .word ∧ ¬InRange 0xFFFFF9 .word ∧
    InRange (seen (holdingB 0xFFFFFF) 3 .b) .byte ∧ ¬InRange (seen (holdingB 0x1000000) 3 .b) .byte ∧
    (∃ s, s.Inv ∧ s.status = .running ∧ AtPc s [0x03, 0xF6, 0xF7]) ∧
    (∃ s, s.Inv ∧ s.status = .running ∧ AtPc s [0x03, 0xF6, 0xF6, 0, 0, 0, 0, 0, 0, 1, 0]) ∧
    (∃ s, s.Inv ∧ s.status = .running ∧ AtPc s [0x03, 0xF7, 0x76]) ∧
    (∃ s, s.Inv ∧ s.status = .running ∧ AtPc s [0x03, 0xF7, 0x67]) ∧
    (∃ s, s.Inv ∧ s.status = .running ∧ AtPc s [0x03, 0xF7, 0x66]) :=
  ⟨by decide, by decide, by decide, by decide, by decide, by decide, by decide, test_atPc _ (by decide), test_atPc _ (by decide), test_atPc _ (by decide), test_atPc _ (by decide), test_atPc _ (by decide)⟩

theorem test_meets_AddImmediateOrRegisterToMemory :
    6 < (0x7 : Nibble).toNat ∧ (0x6 : Nibble).toNat ≤ 6 ∧ regOfCode 0x6 = some .pc ∧
    (holdingB 0xFFFFF8).mem.wf ∧
    InRange (seen (holdingB 0xFFFFF8) 11 .b) .word ∧ ¬InRange (seen (holdingB 0xFFFFF9) 11 .b) .word ∧
    InRange (seen (holdingB 0xFFFFF8) 3 .b) .word ∧ ¬InRange (seen (holdingB 0xFFFFF9) 3 .b) .word ∧
    (∃ s, s.Inv ∧ s.status = .running ∧ AtPc s [0x03, 0xFA, 0xF7]) ∧
    (∃ s, s.Inv ∧ s.status = .running ∧ AtPc s [0x03, 0xFA, 0xF6, 0, 0, 0, 0, 0, 0, 1, 0]) ∧
    (∃ s, s.Inv ∧ s.status = .running ∧ AtPc s [0x03, 0xFB, 0x76]) ∧
    (∃ s, s.Inv ∧ s.status = .running ∧ AtPc s [0x03, 0xFB, 0x67]) ∧
    (∃ s, s.Inv ∧ s.status = .running ∧ AtPc s [0x03, 0xFB, 0x66]) :=
  ⟨by decide, by decide, by decide, by decide, by decide, by decide, by decide, by decide, test_atPc _ (by decide), test_atPc _ (by decide), test_atPc _ (by decide), test_atPc _ (by decide), test_atPc _ (by decide)⟩

theorem test_meets_AddMemoryToMemory :
    State.reset.mem.wf ∧ InRange 0xFFFFF8 .word ∧ ¬InRange 0xFFFFF9 .word ∧
    ∃ s, s.Inv ∧ s.status = .running ∧ AtPc s [0x03, 0xFC, 0xFF, 0, 0, 0, 0, 0, 0, 1, 0, 0, 0, 0, 0, 0, 0, 1, 0] :=
  ⟨by decide, by decide, by decide, test_atPc _ (by decide)⟩

theorem test_meets_SubImmediateOrRegisterToRegister :
    6 < (0x7 : Nibble).toNat ∧ (0x6 : Nibble).toNat ≤ 6 ∧ regOfCode 0x6 = some .pc ∧
    (∃ s, s.Inv ∧ s.status = .running ∧ AtPc s [0x04, 0xF2, 0xF7]) ∧
    (∃ s, s.Inv ∧ s.status = .running ∧ AtPc s [0x04, 0xF2, 0xF6, 0, 0, 0, 0, 0, 0, 1, 0]) ∧
    (∃ s, s.Inv ∧ s.status = .running ∧ AtPc s [0x04, 0xF3, 0x76]) ∧
    (∃ s, s.Inv ∧ s.status = .running ∧ AtPc s [0x04, 0xF3, 0x67]) ∧
    (∃ s, s.Inv ∧ s.status = .running ∧ AtPc s [0x04, 0xF3, 0x66]) :=
  ⟨by decide, by decide, by decide, test_atPc _ (by decide), test_atPc _ (by decide), test_atPc _ (by decide), test_atPc _ (by decide), test_atPc _ (by decide)⟩

theorem test_meets_SubMemoryToRegister :
    6 < (0x7 : Nibble).toNat ∧ (0x6 : Nibble).toNat ≤ 6 ∧ regOfCode 0x6 = some .pc ∧
    InRange 0xFFFFF8 .word ∧ ¬InRange 0xFFFFF9 .word ∧
    InRange (seen (holdingB 0xFFFFFF) 3 .b) .byte ∧ ¬InRange (seen (holdingB 0x1000000) 3 .b) .byte ∧
    (∃ s, s.Inv ∧ s.status = .running ∧ AtPc s [0x04, 0xF6, 0xF7]) ∧
    (∃ s, s.Inv ∧ s.status = .running ∧ AtPc s [0x04, 0xF6, 0xF6, 0, 0, 0, 0, 0, 0, 1, 0]) ∧
    (∃ s, s.Inv ∧ s.status = .running ∧ AtPc s [0x04, 0xF7, 0x76]) ∧
    (∃ s, s.Inv ∧ s.status = .running ∧ AtPc s [0x04, 0xF7, 0x67]) ∧
    (∃ s, s.Inv ∧ s.status = .running ∧ AtPc s [0x04, 0xF7, 0x66]) :=
  ⟨by decide, by decide, by decide, by decide, by decide, by decide, by decide, test_atPc _ (by decide), test_atPc _ (by decide), test_atPc _ (by decide), test_atPc _ (by decide), test_atPc _ (by decide)⟩

theorem test_meets_SubImmediateOrRegisterToMemory :
    6 < (0x7 : Nibble).toNat ∧ (0x6 : Nibble).toNat ≤ 6 ∧ regOfCode 0x6 = some .pc ∧
    (holdingB 0xFFFFF8).mem.wf ∧
    InRange (seen (holdingB 0xFFFFF8) 11 .b) .word ∧ ¬InRange (seen (holdingB 0xFFFFF9) 11 .b) .word ∧
    InRange (seen (holdingB 0xFFFFF8) 3 .b) .word ∧ ¬InRange (seen (holdingB 0xFFFFF9) 3 .b) .word ∧
    (∃ s, s.Inv ∧ s.status = .running ∧ AtPc s [0x04, 0xFA, 0xF7]) ∧
    (∃ s, s.Inv ∧ s.status = .running ∧ AtPc s [0x04, 0xFA, 0xF6, 0, 0, 0, 0, 0, 0, 1, 0]) ∧
    (∃ s, s.Inv ∧ s.status = .running ∧ AtPc s [0x04, 0xFB, 0x76]) ∧
    (∃ s, s.Inv ∧ s.status = .running ∧ AtPc s [0x04, 0xFB, 0x67]) ∧
    (∃ s, s.Inv ∧ s.status = .running ∧ AtPc s [0x04, 0xFB, 0x66]) :=
  ⟨by decide, by decide, by decide, by decide, by decide, by decide, by decide, by decide, test_atPc _ (by decide), test_atPc _ (by decide), test_atPc _ (by decide), test_atPc _ (by decide), test_atPc _ (by decide)⟩

theorem test_meets_SubMemoryToMemory :
    State.reset.mem.wf ∧ InRange 0xFFFFF8 .word ∧ ¬InRange 0xFFFFF9 .word ∧
    ∃ s, s.Inv ∧ s.status = .running ∧ AtPc s [0x04, 0xFC, 0xFF, 0, 0, 0, 0, 0, 0, 1, 0, 0, 0, 0, 0, 0, 0, 1, 0] :=
  ⟨by decide, by decide, by decide, test_atPc _ (by decide)⟩

theorem test_meets_NotComplements :
    6 < (0x7 : Nibble).toNat ∧ (0x6 : Nibble).toNat ≤ 6 ∧ regOfCode 0x6 = some .pc ∧ 2 < (0x3 : Nibble).toNat ∧ (holdingB 0xFFFFFF).mem.wf ∧
    InRange 0xFFFFFF .byte ∧ ¬InRange 0x1000000 .byte ∧
    InRange (seen (holdingB 0xFFFFFF) 2 .b) .byte ∧ ¬InRange (seen (holdingB 0x1000000) 2 .b) .byte ∧
    (∃ s, s.Inv ∧ s.status = .running ∧ AtPc s [0x05, 0x07]) ∧
    (∃ s, s.Inv ∧ s.status = .running ∧ AtPc s [0x05, 0x06]) ∧
    (∃ s, s.Inv ∧ s.status = .running ∧ AtPc s [0x05, 0x1F, 0, 0, 0, 0, 0, 0, 1, 0]) ∧
    (∃ s, s.Inv ∧ s.status = .running ∧ AtPc s [0x05, 0x27]) ∧
    (∃ s, s.Inv ∧ s.status = .running ∧ AtPc s [0x05, 0x26]) ∧
    (∃ s, s.Inv ∧ s.status = .running ∧ AtPc s [0x05, 0x30]) :=
  ⟨by decide, by decide, by decide, by decide, by decide, by decide, by decide, by decide, by decide, test_atPc _ (by decide), test_atPc _ (by decide), test_atPc _ (by decide), test_atPc _ (by decide), test_atPc _ (by decide), test_atPc _ (by decide)⟩

theorem test_meets_Not6Complements :
    6 < (0x7 : Nibble).toNat ∧ (0x6 : Nibble).toNat ≤ 6 ∧ regOfCode 0x6 = some .pc ∧ 2 < (0x3 : Nibble).toNat ∧ (holdingB 0xFFFFFF).mem.wf ∧
    InRange 0xFFFFFF .byte ∧ ¬InRange 0x1000000 .byte ∧
    InRange (seen (holdingB 0xFFFFFF) 2 .b) .byte ∧ ¬InRange (seen (holdingB 0x1000000) 2 .b) .byte ∧
    (∃ s, s.Inv ∧ s.status = .running ∧ AtPc s [0x06, 0x07]) ∧
    (∃ s, s.Inv ∧ s.status = .running ∧ AtPc s [0x06, 0x06]) ∧
    (∃ s, s.Inv ∧ s.status = .running ∧ AtPc s [0x06, 0x1F, 0, 0, 0, 0, 0, 0, 1, 0]) ∧
    (∃ s, s.Inv ∧ s.status = .running ∧ AtPc s [0x06, 0x27]) ∧
    (∃ s, s.Inv ∧ s.status = .running ∧ AtPc s [0x06, 0x26]) ∧
    (∃ s, s.Inv ∧ s.status = .running ∧ AtPc s [0x06, 0x30]) :=
  ⟨by decide, by decide, by decide, by decide, by decide, by decide, by decide, by decide, by decide, test_atPc _ (by decide), test_atPc _ (by decide), test_atPc _ (by decide), test_atPc _ (by decide), test_atPc _ (by decide), test_atPc _ (by decide)⟩

theorem test_meets_NopOnlyMovesPc :
    (∃ s, s.Inv ∧ s.status = .running ∧ AtPc s [0x00]) ∧ Config.memCapacity ≤ (startAt 0x1000000 []).pc.toNat :=
  ⟨test_atPc _ (by decide), by decide⟩

theorem test_meets_HaltSetsTheHaltBit :
    (∃ s, s.Inv ∧ s.status = .running ∧ AtPc s [0x01]) ∧ Config.memCapacity ≤ (startAt 0x1000000 []).pc.toNat ∧
      (7 : Nat) ≠ 0 :=
  ⟨test_atPc _ (by decide), by decide, by decide⟩

theorem test_meets_ComplementingTwiceRestores :
    (Reg.a ≠ .pc ∧ ∃ t u, exec (instrCmplReg .not .a) State.reset = .next t ∧
      exec (instrCmplReg .not6 .a) t = .next u) ∧
    ((holdingB 0xFFFFFF).mem.wf ∧ seen (holdingB 0xFFFFFF) 2 .b = 0xFFFFFF ∧
      ∃ t u, exec (instrCmplMemReg .not .b) (holdingB 0xFFFFFF) = .next t ∧
        exec (instrCmplMemImm .not6 0xFFFFFF) t = .next u) :=
  ⟨⟨by decide, _, _, rfl, rfl⟩, by decide, by decide, _, _, rfl, rfl⟩

theorem test_meets_SubtractionUndoesAddition :
    (Reg.a ≠ .b ∧ Reg.a ≠ .pc ∧ Reg.b ≠ .pc ∧ ∃ t u, exec (.addRR .a .b) State.reset = .next t ∧
      exec (.subRR .a .b) t = .next u) ∧
    ((holdingB 0xFFFFF8).mem.wf ∧ ∃ t u, exec (.addIMr 5 .b) (holdingB 0xFFFFF8) = .next t ∧
      exec (.subIMr 5 .b) t = .next u) ∧
    ∃ t, exec (.subRR .pc .pc) State.reset = .next t :=
  ⟨⟨by decide, by decide, by decide, _, _, rfl, rfl⟩, ⟨by decide, _, _, rfl, rfl⟩, _, rfl⟩

theorem test_meets_WritingPcTransfersControl :
    (Config.memCapacity ≤ (0x1000000 : Word).toNat ∧
      ∃ s, s.Inv ∧ s.status = .running ∧ AtPc s (encode (.movIR 0x1000000 .pc))) ∧
    (∃ s, s.Inv ∧ s.status = .running ∧ AtPc s (encode (.addIR 1 .pc))) ∧
    (∃ s, s.Inv ∧ s.status = .running ∧ AtPc s (encode (.subIR 11 .pc))) ∧
    (∃ s, s.Inv ∧ s.status = .running ∧ AtPc s (encode (.movRR .b .pc))) ∧
    (InRange 0xFFFFF8 .word ∧ ∃ s, s.Inv ∧ s.status = .running ∧ AtPc s (encode (.movMiR 0xFFFFF8 .pc))) ∧
    (∃ s, s.status = .running ∧ InRange (seen s 3 .b) .byte ∧ AtPc s (encode (.movMrR .b .pc))) :=
  ⟨⟨by decide, test_atPc _ (by decide)⟩, test_atPc _ (by decide), test_atPc _ (by decide), test_atPc _ (by decide),
    ⟨by decide, test_atPc _ (by decide)⟩, { startAt 0 (encode (.movMrR .b .pc)) with b := 0xFFFFFF }, rfl, by decide,
    by decide, fun k hk => Memory.read_writeList_inside Memory.wf_nil 0 (encode (.movMrR .b .pc)) k hk⟩

theorem test_meets_TheSevenRegistersHoldWhatIsWritten : 6 < (0x7 : Nibble).toNat ∧ 6 < (0xF : Nibble).toNat := by
  decide

theorem test_meets_MemoryReadsTheLastByteWritten : Memory.wf [] ∧ Memory.wf [(0, 1), (0xFFFFFF, 2)] := by decide

theorem test_meets_WordsAreBigEndian :
    Memory.wf [(0, 1), (0xFFFFFF, 2)] ∧ WordAt [(7, 0x88)] 0 0x88 ∧ 7 < (bytesOfWord 0x88).length :=
  ⟨by decide, by unfold WordAt; decide, by decide⟩

theorem test_meets_UnwrittenMemoryRunsAsNop :
    State.reset.status = .running ∧ (startAt 0xFFFFFF []).mem.read 0xFFFFFF = 0x00 ∧
      (startAt 0xFFFFFF []).pc.toNat < Config.memCapacity ∧
      (startAt 0x1000000 []).mem.read 0x1000000 = 0x00 ∧
      Config.memCapacity ≤ (startAt 0x1000000 []).pc.toNat := by decide

theorem test_meets_LoadWritesTheProgramOnce :
    State.reset.mem.wf ∧ State.reset.loadOpen = true ∧
      (List.replicate 16777216 (0 : Byte)).length ≤ Config.memCapacity ∧
      Config.memCapacity < (List.replicate 16777217 (0 : Byte)).length ∧ State.reset.status = .running := by
  simp only [List.length_replicate]; decide

theorem test_meets_HostAccessesActOnWhatTheyName :
    regOfCode 6 = some .pc ∧ 6 < (0x7 : Nibble).toNat ∧ State.reset.mem.wf ∧
      (0xFFFFFF : Word).toNat < Config.memCapacity ∧ Config.memCapacity ≤ (0x1000000 : Word).toNat ∧
      (7 : Fin 8) ≠ 0 := by decide

theorem test_meets_TheHostLoopStopsAtTheFirstHalt :
    (match drive 1 (startAt 0 [0x01]) with | .halted t => t.pc == 1 | _ => false) = true ∧
    (match drive 2 (startAt 0 [0x00, 0x07]) with | .faulted _ f => f.start == 1 | _ => false) = true ∧
    (match drive 2 State.reset with | .running t => t.pc == 2 | _ => false) = true := by decide

theorem test_meets_BootPlacesTheProgram :
    (List.replicate 16777216 (0 : Byte)).length ≤ Config.memCapacity := by
  simp only [List.length_replicate]; decide

end Sys2Proof.Tests
end

/-! What the machine never refuses (R8, R88): the proofs of the scope's statements. -/

namespace Sys2Proof.Machine

/-- The ignored bits are the only rejection that is no fault (R88, R202 to R204). -/
theorem rejectOutcome_ne_refused {e : Reject} (he : e ≠ .ignoredBits) (start : Word) (reason : Refusal) :
    rejectOutcome start e ≠ .refused reason := by
  cases e with
  | ignoredBits => exact absurd rfl he
  | opcode | mode | cmode | register | truncated => exact nofun

/-- At the default `STRICT_IGNORED_BITS` the decoder rejects no bytes for their ignored bits (R8, R88). -/
theorem decode_ne_ignoredBits (bytes : List Byte) : decode bytes ≠ .error .ignoredBits := by
  rw [decode_eq_parse]
  exact parse_ne_ignoredBits bytes

/-- Settles O23: a Faulted core faults again, what decodes has a meaning, and what does not decode is never rejected for
its ignored bits, so that its rejection is a fault. -/
theorem noStepIsRefused : Obligations.NoStepIsRefused := by
  intro s reason
  cases hs : s.status with
  | faulted record =>
    rw [step_faulted hs]
    exact nofun
  | running =>
    cases hd : decode (fetchWindow s) with
    | ok decoded =>
      rw [step_of_decode hs hd]
      exact exec_ne_refused decoded.1 s.closeLoad reason
    | error e =>
      have he : e ≠ .ignoredBits := by
        rintro rfl
        exact decode_ne_ignoredBits _ hd
      rw [step_of_reject hs hd]
      exact rejectOutcome_ne_refused he s.pc reason

end Sys2Proof.Machine

/-! What an instruction leaves unchanged beside its destination (R24, R30, R33), and the invariant (R34, R50) along steps
and host ports. -/

namespace Sys2Proof.Machine

/-! ### Frames of an instruction -/

/-- A memory update touches the memory only, so every register but PC survives an instruction that stores. -/
theorem reg_advance_withMem_ne (s : State) (n : Nat) (m : Memory) {r : Reg} (h : r ≠ .pc) :
    { s.advance n with mem := m }.reg r = s.reg r := by
  rw [State.reg_withMem, State.reg_advance_ne _ _ h]

/-- A register other than PC and the named destination is left. -/
theorem exec_reg_of_ne_destReg {i : Instr} {s t : State} (h : exec i s = .next t) {r : Reg} (hpc : r ≠ .pc)
    (hr : destReg i ≠ some r) : t.reg r = s.reg r := by
  obtain ⟨rd, v, hd, _, _, rfl⟩ | ⟨_, _, _, _, _, _, rfl⟩ | ⟨_, _, _, _, _, _, rfl⟩ | ⟨_, rfl⟩ | ⟨_, rfl⟩ := exec_next h
  · have hne : r ≠ rd := fun e => hr (e ▸ hd)
    rw [State.reg_setReg_ne _ _ hne, State.reg_advance_ne _ _ hpc]
  · exact reg_advance_withMem_ne s _ _ hpc
  · exact reg_advance_withMem_ne s _ _ hpc
  · exact State.reg_advance_ne s 1 hpc
  · rw [State.reg_setHalt, State.reg_advance_ne s 1 hpc]

/-- No instruction touches the run status, the host's load or the free values. -/
theorem exec_status_loadOpen_free {i : Instr} {s t : State} (h : exec i s = .next t) :
    t.status = s.status ∧ t.loadOpen = s.loadOpen ∧ t.free = s.free := by
  obtain ⟨_, _, _, _, _, rfl⟩ | ⟨_, _, _, _, _, _, rfl⟩ | ⟨_, _, _, _, _, _, rfl⟩ | ⟨_, rfl⟩ | ⟨_, rfl⟩ := exec_next h
  · simp
  · exact ⟨rfl, rfl, rfl⟩
  · exact ⟨rfl, rfl, rfl⟩
  · exact ⟨rfl, rfl, rfl⟩
  · exact ⟨rfl, rfl, rfl⟩

/-- Every instruction but HALT leaves the flags (R30, R114). -/
theorem exec_flags_of_ne_halt {i : Instr} {s t : State} (hi : i ≠ .halt) (h : exec i s = .next t) :
    t.flags = s.flags := by
  obtain ⟨_, _, _, _, _, rfl⟩ | ⟨_, _, _, _, _, _, rfl⟩ | ⟨_, _, _, _, _, _, rfl⟩ | ⟨_, rfl⟩ | ⟨rfl, _⟩ := exec_next h
  · simp
  · rfl
  · rfl
  · rfl
  · exact absurd rfl hi

/-! ### The invariant -/

/-- A register write keeps the invariant, which speaks of the memory only. -/
theorem State.Inv.setReg {s : State} (h : s.Inv) (r : Reg) (v : Word) : (s.setReg r v).Inv := by
  rwa [State.Inv, State.mem_setReg]

/-- Bytes written inside the memory keep the invariant. -/
theorem State.Inv.writeList {s t : State} (h : s.Inv) {addr : Nat} {bytes : List Byte}
    (hr : addr + bytes.length ≤ Config.memCapacity) (ht : t.mem = s.mem.writeList addr bytes) : t.Inv := by
  obtain ⟨hwf, hb⟩ := h
  rw [State.Inv, ht]
  exact ⟨Memory.writeList_wf hwf addr bytes, Memory.writeList_bounded hb addr bytes hr⟩

/-- One byte written inside the memory keeps the invariant. -/
theorem State.Inv.write {s t : State} (h : s.Inv) {addr : Word} {v : Byte} (hr : InRange addr .byte)
    (ht : t.mem = s.mem.write addr.toNat v) : t.Inv :=
  h.writeList (bytes := [v]) hr ht

theorem exec_keeps_inv {i : Instr} {s t : State} (h : s.Inv) (he : exec i s = .next t) : t.Inv := by
  obtain ⟨rd, v, _, _, _, rfl⟩ | ⟨addr, v, _, _, _, hr, rfl⟩ | ⟨addr, v, _, _, _, hr, rfl⟩ | ⟨_, rfl⟩ | ⟨_, rfl⟩ :=
    exec_next he
  · exact State.Inv.setReg (s := s.advance i.length) h rd v
  · exact h.writeList (bytes := bytesOfWord v) hr rfl
  · exact h.write hr rfl
  · exact h
  · exact h

/-- A core that answers a next state was Running, and still is. -/
theorem step_next_status {s t : State} (h : step s = .next t) : t.status = .running := by
  obtain ⟨hs, i, _, _, he⟩ := step_next h
  rw [(exec_status_loadOpen_free he).1, State.status_closeLoad, hs]

theorem step_keeps_inv {s t : State} (h : s.Inv) (hst : step s = .next t) : t.Inv := by
  obtain ⟨_, i, _, _, he⟩ := step_next hst
  exact exec_keeps_inv (s := s.closeLoad) h he

/-- Settles O25: a step's next state is an instruction's, an instruction stores in range only, and none touches the run
status. -/
theorem everyStepKeepsTheInvariant : Obligations.EveryStepKeepsTheInvariant :=
  fun _ _ hinv hst => ⟨step_keeps_inv hinv hst, step_next_status hst⟩

/-- Settles O18, from all an instruction can do. -/
theorem onlyTheNamedRegisterIsWritten : Obligations.OnlyTheNamedRegisterIsWritten :=
  fun _ _ _ h => ⟨fun _ hpc hr => exec_reg_of_ne_destReg h hpc hr, exec_status_loadOpen_free h⟩

/-- Settles O26: memory is empty at creation, whatever the launch inputs. -/
theorem creationHasTheInvariant : Obligations.CreationHasTheInvariant := by
  have hcreate : ∀ init, (State.create init).Inv := fun _ => ⟨Memory.wf_nil, nofun⟩
  exact ⟨hcreate, hcreate Config.initRegs⟩

/-! ### What a host port can do -/

/-- All a load that is accepted can do. -/
theorem loadProgram_ok {bytes : List Byte} {s t : State} {n : Nat} (h : loadProgram bytes s = .ok (t, n)) :
    s.loadOpen = true ∧ bytes.length ≤ Config.memCapacity ∧ n = bytes.length ∧
      t = { s.closeLoad with mem := s.mem.writeList 0 bytes } := by
  unfold loadProgram at h
  split at h
  · cases h
  · split at h
    · cases h
    · cases h
      exact ⟨Bool.eq_true_of_not_eq_false ‹_›, Nat.le_of_not_lt ‹_›, rfl, rfl⟩

/-- All a register write that is accepted can do. -/
theorem regWrite_ok {code : Nibble} {v : Word} {s t : State} (h : regWrite code v s = .ok t) :
    ∃ r, regOfCode code = some r ∧ t = s.setReg r v := by
  unfold regWrite at h
  split at h
  · cases h; exact ⟨_, ‹_›, rfl⟩
  · cases h

/-- All a byte write that is accepted can do. -/
theorem memWriteByte_ok {addr : Word} {v : Byte} {s t : State} (h : memWriteByte addr v s = .ok t) :
    InRange addr .byte ∧ t = { s with mem := s.mem.write addr.toNat v } := by
  unfold memWriteByte at h
  split at h
  · cases h; exact ⟨‹_›, rfl⟩
  · cases h

/-- Where the step answers a next state, the core was Running and `Step()` returns Running with it (R40). -/
theorem stepPort_of_next {s t : State} (h : step s = .next t) : stepPort s = (t, .running) := by
  obtain ⟨hs, _⟩ := step_next h
  simp only [stepPort, hs, h]

/-- A Running core whose step faults takes the fault (R201). -/
theorem stepPort_of_fault {s : State} {f : Fault} (hs : s.status = .running) (h : step s = .fault f) :
    stepPort s = (s.closeLoad.raiseFault f, .faulted f) := by
  simp only [stepPort, hs, h]

/-- A Faulted core is left as it is (R40). -/
theorem stepPort_of_faulted {s : State} {f : Fault} (hs : s.status = .faulted f) : stepPort s = (s, .faulted f) := by
  simp only [stepPort, hs]

/-- Whether the core was Faulted before or faults now, `Step()` returns the fault. -/
theorem stepPort_snd_of_fault {s : State} {f : Fault} (h : step s = .fault f) : (stepPort s).2 = .faulted f := by
  cases hs : s.status with
  | running => rw [stepPort_of_fault hs h]
  | faulted record =>
    rw [step_faulted hs] at h
    cases h
    rw [stepPort_of_faulted hs]

theorem stepPort_keeps_inv {s : State} (h : s.Inv) : (stepPort s).1.Inv := by
  cases hst : step s with
  | next t => rw [stepPort_of_next hst]; exact step_keeps_inv h hst
  | refused reason => exact absurd hst (noStepIsRefused s reason)
  | fault f =>
    cases hs : s.status with
    | running => rw [stepPort_of_fault hs hst]; exact h
    | faulted record => rw [stepPort_of_faulted hs]; exact h

/-- Settles O27: a port that writes memory writes inside it, and the others leave it. -/
theorem everyPortKeepsTheInvariant : Obligations.EveryPortKeepsTheInvariant := by
  intro s hinv
  refine ⟨stepPort_keeps_inv hinv, ?load, ?register, ?byte, fun _ _ => hinv⟩
  case load =>
    intro bytes t n h
    obtain ⟨_, hfits, _, rfl⟩ := loadProgram_ok h
    exact hinv.writeList (by rwa [Nat.zero_add]) rfl
  case register =>
    intro code v t h
    obtain ⟨r, _, rfl⟩ := regWrite_ok h
    exact hinv.setReg r v
  case byte =>
    intro addr v t h
    obtain ⟨hr, rfl⟩ := memWriteByte_ok h
    exact hinv.write hr rfl

end Sys2Proof.Machine

/-! The flag register (R29 to R32): who writes it, and that nothing reads it; and the registers no operand names (R23). -/

namespace Sys2Proof

/-- The registers an operand names. -/
def Operand.regs : Operand → List Reg
  | .reg r | .memReg r => [r]
  | .imm _ | .memImm _ => []

end Sys2Proof

namespace Sys2Proof.Machine

/-! ### One bit of the flags -/

/-- READ AFTER WRITE, for a flag bit: the bit written reads back, and every other is as it was. -/
theorem testBit_writeBit (flags : BitVec 8) (n m : Fin 8) (v : Bool) :
    testBit (writeBit flags n v) m = if m = n then v else testBit flags m := by
  have htwo : (BitVec.twoPow 8 n).getLsbD m = decide (m = n) := by
    rw [BitVec.getLsbD_twoPow]
    simp [Fin.ext_iff, eq_comm]
  cases v with
  | true =>
    simp only [testBit, writeBit, if_true, BitVec.getLsbD_or, htwo]
    by_cases h : m = n <;> simp [h]
  | false =>
    simp only [testBit, writeBit, Bool.false_eq_true, if_false, BitVec.getLsbD_and, BitVec.getLsbD_not, htwo]
    by_cases h : m = n <;> simp [h]

@[simp] theorem State.flags_setHalt (s : State) : s.setHalt.flags = writeBit s.flags Flag.halt.bit true := rfl

/-- All HALT does: PC passes it and the Halt bit is set (R191). -/
theorem exec_halt (s : State) : exec .halt s = .next (s.advance 1).setHalt := rfl

/-- Settles O16: the read-after-write law of a flag bit for HALT, and all an instruction can do for the others. -/
theorem onlyHaltWritesTheFlags : Obligations.OnlyHaltWritesTheFlags := by
  refine ⟨?halt, fun i s t hi h => exec_flags_of_ne_halt hi h, fun s i rest hs _ hd => step_of_decode hs hd⟩
  case halt =>
    intro s t h
    rw [exec_halt] at h
    cases h
    rw [State.flag, State.flags_setHalt, State.flags_advance]
    exact ⟨(testBit_writeBit ..).trans (if_pos rfl), fun n hn => (testBit_writeBit ..).trans (if_neg hn)⟩

/-! ### Updates that an operation cannot see -/

/-- The registers a destination operand names. -/
def Dest.regs : Dest → List Reg
  | .reg r | .memReg r => [r]
  | .memImm _ => []

/-- Every instruction runs its operands' operation, and the registers it names are those its operands name. -/
theorem exec_operands (i : Instr) :
    (∃ op src dst, (∀ s, exec i s = execute2 op src dst s) ∧ namedRegs i = src.regs ++ dst.regs) ∨
    (∃ operand, (∀ s, exec i s = execute1 operand s) ∧ namedRegs i = operand.regs) ∨
    i = .nop ∨ i = .halt := by
  cases i with
  | nop => exact .inr (.inr (.inl rfl))
  | halt => exact .inr (.inr (.inr rfl))
  | movIR v q => exact .inl ⟨.mov, .imm v, .reg q, fun _ => rfl, rfl⟩
  | addIR v q => exact .inl ⟨.add, .imm v, .reg q, fun _ => rfl, rfl⟩
  | subIR v q => exact .inl ⟨.sub, .imm v, .reg q, fun _ => rfl, rfl⟩
  | movRR r q => exact .inl ⟨.mov, .reg r, .reg q, fun _ => rfl, rfl⟩
  | addRR r q => exact .inl ⟨.add, .reg r, .reg q, fun _ => rfl, rfl⟩
  | subRR r q => exact .inl ⟨.sub, .reg r, .reg q, fun _ => rfl, rfl⟩
  | movMiR v q | addMiR v q | subMiR v q => exact .inl ⟨_, .memImm v, .reg q, fun _ => rfl, rfl⟩
  | movMrR r q | addMrR r q | subMrR r q => exact .inl ⟨_, .memReg r, .reg q, fun _ => rfl, rfl⟩
  | movIMr v q | addIMr v q | subIMr v q => exact .inl ⟨_, .imm v, .memReg q, fun _ => rfl, rfl⟩
  | movRMr r q | addRMr r q | subRMr r q => exact .inl ⟨_, .reg r, .memReg q, fun _ => rfl, rfl⟩
  | movMiMi v w | addMiMi v w | subMiMi v w => exact .inl ⟨_, .memImm v, .memImm w, fun _ => rfl, rfl⟩
  | notReg r | not6Reg r => exact .inr (.inl ⟨.reg r, fun _ => rfl, rfl⟩)
  | notMemImm v | not6MemImm v => exact .inr (.inl ⟨.memImm v, fun _ => rfl, rfl⟩)
  | notMemReg r | not6MemReg r => exact .inr (.inl ⟨.memReg r, fun _ => rfl, rfl⟩)

/-- A register location names a register of the operand it was resolved from. -/
theorem mem_of_resolveDest_reg {dst : Dest} {named : List Reg} (hdst : dst.regs ⊆ named) {s : State} {r : Reg}
    (h : resolveDest dst s = .reg r) : r ∈ named := by
  cases dst <;> cases h
  exact hdst List.mem_cons_self

/-- An update of the state that leaves memory, PC and the registers `named`, and that commutes with writing them: what an
operation over these registers neither reads nor overwrites. -/
structure Unseen (named : List Reg) (g : State → State) : Prop where
  mem : ∀ s, (g s).mem = s.mem
  reg : ∀ s, ∀ r ∈ Reg.pc :: named, (g s).reg r = s.reg r
  setReg : ∀ s v, ∀ r ∈ Reg.pc :: named, (g s).setReg r v = g (s.setReg r v)
  withMem : ∀ s m, { g s with mem := m } = g { s with mem := m }

section
variable {named : List Reg} {g : State → State} (hg : Unseen named g)
include hg

theorem Unseen.pc (s : State) : (g s).pc = s.pc := hg.reg s .pc List.mem_cons_self

theorem Unseen.advance (s : State) (n : Nat) : (g s).advance n = g (s.advance n) := by
  calc (g s).advance n
    _ = (g s).setReg .pc (s.pc + BitVec.ofNat 64 n) := by rw [State.advance, hg.pc]; rfl
    _ = g (s.advance n) := hg.setReg s (s.pc + BitVec.ofNat 64 n) .pc List.mem_cons_self

theorem Unseen.loadByte (s : State) (start : Word) (access : Access) (addr : Word) :
    (g s).loadByte start access addr = s.loadByte start access addr := by
  rw [State.loadByte, State.loadByte, hg.mem]

theorem Unseen.load (s : State) (start : Word) (w : Width) (addr : Word) :
    (g s).load start w addr = s.load start w addr := by
  cases w with
  | byte => rw [State.load, State.load, hg.loadByte]
  | word => rw [State.load_word, State.load_word, State.loadWord, State.loadWord, hg.mem]

theorem Unseen.storeByte (s : State) (start addr : Word) (v : Byte) :
    (g s).storeByte start addr v = (s.storeByte start addr v).map g := by
  simp only [State.storeByte, hg.mem, hg.withMem]
  split <;> rfl

theorem Unseen.storeWord (s : State) (start addr v : Word) :
    (g s).storeWord start addr v = (s.storeWord start addr v).map g := by
  simp only [State.storeWord, hg.mem, hg.withMem]
  split <;> rfl

theorem Unseen.resolveSource {src : Operand} (hsrc : src.regs ⊆ named) (s : State) (start : Word) :
    resolveSource start src (g s) = resolveSource start src s := by
  cases src with
  | imm v => rfl
  | memImm addr => exact hg.load s start Config.srcWidthMemImm addr
  | reg r =>
    have hr := hg.reg s r (List.mem_cons_of_mem _ (hsrc List.mem_cons_self))
    simp only [Machine.resolveSource, hr]
  | memReg r =>
    have hr := hg.reg s r (List.mem_cons_of_mem _ (hsrc List.mem_cons_self))
    simp only [Machine.resolveSource, hr, hg.load]

theorem Unseen.resolveDest {dst : Dest} (hdst : dst.regs ⊆ named) (s : State) :
    resolveDest dst (g s) = resolveDest dst s := by
  cases dst with
  | reg r => rfl
  | memImm addr => rfl
  | memReg r =>
    have hr := hg.reg s r (List.mem_cons_of_mem _ (hdst List.mem_cons_self))
    simp only [Machine.resolveDest, hr]

theorem Unseen.readDest {loc : Loc} (hloc : ∀ r, loc = .reg r → r ∈ named) (s : State) (start : Word) :
    readDest start loc (g s) = readDest start loc s := by
  cases loc with
  | reg r => simp only [Machine.readDest, hg.reg s r (List.mem_cons_of_mem _ (hloc r rfl))]
  | mem addr => exact hg.load s start Config.arithMemDestWidth addr

theorem Unseen.aluResult {loc : Loc} (hloc : ∀ r, loc = .reg r → r ∈ named) (op : Op2) (s : State) (start sv : Word) :
    aluResult op start sv loc (g s) = aluResult op start sv loc s := by
  cases op with
  | mov => rfl
  | add | sub => simp only [Machine.aluResult, hg.readDest hloc]

theorem Unseen.writeDest {loc : Loc} (hloc : ∀ r, loc = .reg r → r ∈ named) (s : State) (start v : Word) :
    writeDest start loc v (g s) = (writeDest start loc v s).map g := by
  cases loc with
  | reg r => simp only [Machine.writeDest, hg.setReg s v r (List.mem_cons_of_mem _ (hloc r rfl)), Except.map]
  | mem addr => exact hg.storeWord s start addr v

theorem Unseen.operate2 {src : Operand} {dst : Dest} (hsrc : src.regs ⊆ named) (hdst : dst.regs ⊆ named) (op : Op2)
    (start : Word) (s : State) : operate2 op start src dst (g s) = (operate2 op start src dst s).map g := by
  have hloc : ∀ r, Machine.resolveDest dst s = .reg r → r ∈ named := fun _ h => mem_of_resolveDest_reg hdst h
  simp only [Machine.operate2, hg.resolveSource hsrc, hg.resolveDest hdst, hg.aluResult hloc, hg.writeDest hloc]
  cases Machine.resolveSource start src s with
  | error f => rfl
  | ok sv =>
    cases ha : Machine.aluResult op start sv (Machine.resolveDest dst s) s with
    | error f => simp only [ha, Except.map]
    | ok v => simp only [ha]

theorem Unseen.operate1 {operand : Dest} (ho : operand.regs ⊆ named) (start : Word) (s : State) :
    operate1 start operand (g s) = (operate1 start operand s).map g := by
  simp only [Machine.operate1, hg.resolveDest ho, hg.loadByte, hg.storeByte]
  cases hd : Machine.resolveDest operand s with
  | reg r =>
    have hr := List.mem_cons_of_mem Reg.pc (mem_of_resolveDest_reg ho hd)
    simp only [hg.reg s r hr, hg.setReg s _ r hr, Except.map]
  | mem addr =>
    cases hl : s.loadByte start .read addr with
    | error f => simp only [hl, Except.map]
    | ok v => simp only [hl]

end

/-- Both outcomes of one run with `g` made before it: `g` made after it, or the same fault. -/
def Carries (g : State → State) (before after : Host.Outcome State Fault Refusal) : Prop :=
  (∀ t, before = .next t → after = .next (g t)) ∧ ∀ f, before = .fault f → after = .fault f

theorem carries_outcomeOf_map (g : State → State) (r : Except Fault State) :
    Carries g (outcomeOf r) (outcomeOf (r.map g)) := by
  cases r with
  | ok t => exact ⟨fun u h => by cases h; rfl, nofun⟩
  | error f => exact ⟨nofun, fun _ h => h⟩

/-- NONINTERFERENCE: an update that the named registers, PC and memory do not show is carried through the instruction. -/
theorem exec_unseen {i : Instr} {g : State → State} (hg : Unseen (namedRegs i) g)
    (hhalt : i = .halt → ∀ s, (g s).setHalt = g s.setHalt) (s : State) : Carries g (exec i s) (exec i (g s)) := by
  obtain ⟨op, src, dst, he, hn⟩ | ⟨operand, he, hn⟩ | rfl | rfl := exec_operands i
  · have hsrc : src.regs ⊆ namedRegs i := hn ▸ List.subset_append_left ..
    have hdst : dst.regs ⊆ namedRegs i := hn ▸ List.subset_append_right ..
    rw [he, he, execute2, execute2, hg.pc, hg.advance, hg.operate2 hsrc hdst]
    exact carries_outcomeOf_map ..
  · have ho : operand.regs ⊆ namedRegs i := hn ▸ List.Subset.refl _
    rw [he, he, execute1, execute1, hg.pc, hg.advance, hg.operate1 ho]
    exact carries_outcomeOf_map ..
  · exact ⟨fun t h => by cases h; exact congrArg _ (hg.advance s 1), nofun⟩
  · refine ⟨fun t h => ?_, nofun⟩
    rw [exec_halt] at h ⊢
    cases h
    rw [hg.advance, hhalt rfl]

/-! ### The flags are not seen -/

/-- The state with another flag register. -/
def State.withFlags (s : State) (flags : BitVec 8) : State := { s with flags := flags }

theorem unseen_withFlags (named : List Reg) (flags : BitVec 8) : Unseen named (·.withFlags flags) where
  mem _ := rfl
  reg _ r _ := by cases r <;> rfl
  setReg _ _ r _ := by cases r <;> rfl
  withMem _ _ := rfl

/-- Another flag register before an instruction is another one after it, and changes no fault. -/
theorem exec_withFlags (i : Instr) (s : State) (flags : BitVec 8) :
    ∃ flags', Carries (·.withFlags flags') (exec i s) (exec i (s.withFlags flags)) := by
  by_cases hi : i = .halt
  · subst hi
    refine ⟨writeBit flags Flag.halt.bit true, fun t h => ?_, nofun⟩
    rw [exec_halt] at h ⊢
    cases h
    rfl
  · exact ⟨flags, exec_unseen (unseen_withFlags _ flags) (fun h => absurd h hi) s⟩

/-- Settles O17: the same bytes decode, and what they decode to carries the other flags through. -/
theorem theFlagsAreNeverRead : Obligations.TheFlagsAreNeverRead := by
  intro s g
  show (∀ t, step s = .next t → ∃ h, step (s.withFlags g) = .next (t.withFlags h)) ∧
    ∀ f, step s = .fault f → step (s.withFlags g) = .fault f
  cases hs : s.status with
  | faulted record =>
    rw [step_faulted hs, step_faulted (s := s.withFlags g) hs]
    exact ⟨nofun, fun _ h => h⟩
  | running =>
    cases hd : decode (fetchWindow s) with
    | error e =>
      rw [step_of_reject hs hd, step_of_reject (s := s.withFlags g) hs hd]
      exact ⟨fun t h => absurd h (rejectOutcome_ne_next _ _ _), fun _ h => h⟩
    | ok decoded =>
      obtain ⟨flags', hnext, hfault⟩ := exec_withFlags decoded.1 s.closeLoad g
      rw [step_of_decode hs hd, step_of_decode (s := s.withFlags g) hs hd]
      exact ⟨fun t h => ⟨flags', hnext t h⟩, hfault⟩

/-! ### A register no operand names -/

/-- Writes of two different registers commute. -/
theorem State.setReg_comm (s : State) {r q : Reg} (h : q ≠ r) (v w : Word) :
    (s.setReg r v).setReg q w = (s.setReg q w).setReg r v := by
  cases r <;> cases q <;> first | rfl | exact absurd rfl h

theorem unseen_setReg {named : List Reg} {r : Reg} (hr : r ∉ Reg.pc :: named) (v : Word) :
    Unseen named (·.setReg r v) where
  mem s := State.mem_setReg s r v
  reg s _ hq := State.reg_setReg_ne s v (ne_of_mem_of_not_mem hq hr)
  setReg s w _ hq := State.setReg_comm s (ne_of_mem_of_not_mem hq hr) v w
  withMem _ _ := by cases r <;> rfl

/-- An instruction's destination register is one that its operands name. -/
theorem mem_namedRegs_of_destReg {i : Instr} {r : Reg} (h : destReg i = some r) : r ∈ namedRegs i := by
  cases i <;> cases h <;> simp [namedRegs]

/-- Settles O21: the write of an unnamed register is carried through the instruction, which does not write it. -/
theorem unnamedRegistersAreNeitherReadNorWritten : Obligations.UnnamedRegistersAreNeitherReadNorWritten := by
  intro i s r v hpc hr
  have hg : Unseen (namedRegs i) (·.setReg r v) := unseen_setReg (List.not_mem_cons_of_ne_of_not_mem hpc hr) v
  obtain ⟨hnext, hfault⟩ := exec_unseen hg (fun _ s => by cases r <;> rfl) s
  exact ⟨fun t h => ⟨exec_reg_of_ne_destReg h hpc fun hd => hr (mem_namedRegs_of_destReg hd), hnext t h⟩, hfault⟩

end Sys2Proof.Machine

/-! The host's register, memory, flag and step ports (R38, R40), and its loop (R41). -/

namespace Sys2Proof.Machine

/-! ### Register, memory and flag ports -/

theorem regRead_of_some {code : Nibble} {r : Reg} (h : regOfCode code = some r) (s : State) :
    regRead code s = .ok (s.reg r) := by
  simp only [regRead, h]

theorem regRead_of_invalid {code : Nibble} (h : 6 < code.toNat) (s : State) :
    regRead code s = .error (.registerFault code) := by
  simp only [regRead, regOfCode_eq_none.2 h]

theorem regWrite_of_some {code : Nibble} {r : Reg} (h : regOfCode code = some r) (v : Word) (s : State) :
    regWrite code v s = .ok (s.setReg r v) := by
  simp only [regWrite, h]

theorem regWrite_of_invalid {code : Nibble} (h : 6 < code.toNat) (v : Word) (s : State) :
    regWrite code v s = .error (.registerFault code) := by
  simp only [regWrite, regOfCode_eq_none.2 h]

/-- A byte access is in range exactly below the capacity. -/
theorem inRange_byte {addr : Word} : InRange addr .byte ↔ addr.toNat < Config.memCapacity := Nat.succ_le_iff

theorem memReadByte_of_inRange {addr : Word} (h : InRange addr .byte) (s : State) :
    memReadByte addr s = .ok (s.mem.read addr.toNat) := if_pos h

theorem memReadByte_of_not_inRange {addr : Word} (h : ¬InRange addr .byte) (s : State) :
    memReadByte addr s = .error (.memoryFault addr .read) := if_neg h

theorem memWriteByte_of_inRange {addr : Word} (h : InRange addr .byte) (v : Byte) (s : State) :
    memWriteByte addr v s = .ok { s with mem := s.mem.write addr.toNat v } := if_pos h

theorem memWriteByte_of_not_inRange {addr : Word} (h : ¬InRange addr .byte) (v : Byte) (s : State) :
    memWriteByte addr v s = .error (.memoryFault addr .write) := if_neg h

theorem flagTest_flagWrite (bit other : Fin 8) (v : Bool) (s : State) :
    flagTest other (flagWrite bit v s) = if other = bit then v else flagTest other s :=
  testBit_writeBit s.flags bit other v

/-- Settles O54, one port at a time: a memory byte and a flag bit by their read-after-write laws. -/
theorem hostAccessesActOnWhatTheyName : Obligations.HostAccessesActOnWhatTheyName := by
  refine ⟨fun s code r h => ⟨regRead_of_some h s, fun v => regWrite_of_some h v s⟩,
    fun s code v h => ⟨regRead_of_invalid h s, regWrite_of_invalid h v s⟩, ?byte, ?outOfRange, ?flag⟩
  case byte =>
    intro s addr v hwf haddr
    have hr : InRange addr .byte := inRange_byte.2 haddr
    refine ⟨memReadByte_of_inRange hr s, _, memWriteByte_of_inRange hr v s, ?_, fun x hx => ?_,
      State.reg_withMem s _, rfl, rfl, rfl, rfl⟩
    · exact (Memory.read_write hwf addr.toNat v _).trans (if_pos rfl)
    · exact (Memory.read_write hwf addr.toNat v x).trans (if_neg (by omega))
  case outOfRange =>
    intro s addr v haddr
    have hr : ¬InRange addr .byte := fun h => absurd (inRange_byte.1 h) (Nat.not_lt.2 haddr)
    exact ⟨memReadByte_of_not_inRange hr s, memWriteByte_of_not_inRange hr v s⟩
  case flag =>
    intro s bit v
    exact ⟨rfl, (flagTest_flagWrite bit bit v s).trans (if_pos rfl),
      fun other h => (flagTest_flagWrite bit other v s).trans (if_neg h), rfl⟩

/-! ### `Step()` -/

/-- Settles O14, one lemma per outcome of `Step()`. -/
theorem stepPortAnswersRunningOrFaulted : Obligations.StepPortAnswersRunningOrFaulted :=
  ⟨fun _ _ _ h => stepPort_of_next h, fun _ _ hs h => ⟨_, stepPort_of_fault hs h, rfl⟩,
    fun _ _ _ hs hd => step_of_decode hs hd, fun _ _ hs => stepPort_of_faulted hs⟩

/-! ### Runs without a Halt on the way -/

/-- A run of `k + 1` steps is a first step and a run of `k`. -/
theorem run_succ_eq_next {M : Host.Core} {k : Nat} {s t : M.State} :
    M.run (k + 1) s = .next t ↔ ∃ u, M.step s = .next u ∧ M.run k u = .next t := by
  simp only [Host.Core.run]
  cases M.step s with
  | next u => simp
  | fault f => simp
  | refused r => simp

/-- No state before the `k`-th of the run from `s` has the Halt bit set. -/
def NoHaltBefore (k : Nat) (s : State) : Prop :=
  ∀ j u, j < k → Sys2Proof.core.run j s = .next u → u.flag .halt = false

/-- `k` steps lead from `s` to `t`, and no state before `t` has the Halt bit set. -/
def Reaches (k : Nat) (s t : State) : Prop := Sys2Proof.core.run k s = .next t ∧ NoHaltBefore k s

theorem reaches_zero (s : State) : Reaches 0 s s := ⟨rfl, nofun⟩

/-- A step from a state without Halt, put before a run. -/
theorem Reaches.cons {k : Nat} {s t u : State} (hs : s.flag .halt = false) (hu : step s = .next u)
    (h : Reaches k u t) : Reaches (k + 1) s t := by
  obtain ⟨hrun, hno⟩ := h
  refine ⟨run_succ_eq_next.2 ⟨u, hu, hrun⟩, fun j v hj hv => ?_⟩
  cases j with
  | zero => cases hv; exact hs
  | succ j =>
    obtain ⟨w, hw, hv⟩ := run_succ_eq_next.1 hv
    cases hu.symm.trans hw
    exact hno j v (Nat.lt_of_succ_lt_succ hj) hv

/-- The first step of a run, taken off it. -/
theorem Reaches.uncons {k : Nat} {s t : State} (h : Reaches (k + 1) s t) :
    s.flag .halt = false ∧ ∃ u, step s = .next u ∧ Reaches k u t := by
  obtain ⟨hrun, hno⟩ := h
  obtain ⟨u, hu, hrun⟩ := run_succ_eq_next.1 hrun
  exact ⟨hno 0 s k.succ_pos rfl, u, hu, hrun, fun j v hj hv =>
    hno (j + 1) v (Nat.succ_lt_succ hj) (run_succ_eq_next.2 ⟨u, hu, hv⟩)⟩

/-- Without Halt in the last state either, no state up to the `k`-th has it. -/
theorem reaches_and_unhalted_iff {k : Nat} {s t : State} :
    Reaches k s t ∧ t.flag .halt = false ↔ Sys2Proof.core.run k s = .next t ∧
      ∀ j u, j ≤ k → Sys2Proof.core.run j s = .next u → u.flag .halt = false := by
  constructor
  · rintro ⟨⟨hrun, hno⟩, ht⟩
    refine ⟨hrun, fun j u hj hu => ?_⟩
    obtain hj | rfl := Nat.lt_or_eq_of_le hj
    · exact hno j u hj hu
    · cases hrun.symm.trans hu
      exact ht
  · rintro ⟨hrun, hno⟩
    exact ⟨⟨hrun, fun j u hj => hno j u hj.le⟩, hno k t le_rfl hrun⟩

/-! ### The host's loop -/

theorem drive_of_halt {s : State} (h : s.flag .halt = true) (n : Nat) : drive n s = .halted s := by
  unfold drive
  exact if_pos h

theorem drive_zero {s : State} (h : s.flag .halt = false) : drive 0 s = .running s := by
  rw [drive, if_neg (ne_true_of_eq_false h)]

theorem drive_succ_of_next {s u : State} (h : s.flag .halt = false) (hu : step s = .next u) (n : Nat) :
    drive (n + 1) s = drive n u := by
  rw [drive, if_neg (ne_true_of_eq_false h)]
  simp only [stepPort_of_next hu]

theorem drive_succ_of_fault {s : State} {f : Fault} (h : s.flag .halt = false) (hf : step s = .fault f) (n : Nat) :
    drive (n + 1) s = .faulted (stepPort s).1 f := by
  have hp : stepPort s = ((stepPort s).1, .faulted f) := Prod.ext rfl (stepPort_snd_of_fault hf)
  rw [drive, if_neg (ne_true_of_eq_false h), hp]

/-- The loop from `s` is, after `k` steps without Halt, the loop from where they lead. -/
theorem drive_of_reaches {k : Nat} {s t : State} (h : Reaches k s t) (m : Nat) : drive (m + k) s = drive m t := by
  induction k generalizing s with
  | zero => cases h.1; rfl
  | succ k ih =>
    obtain ⟨hs, u, hu, h⟩ := h.uncons
    exact (drive_succ_of_next hs hu (m + k)).trans (ih h)

/-- How the loop of at most `n` steps from `s` can stand, with the run that led there: at a Halt, at a fault, or with its
steps used up. -/
inductive DriveCase (n : Nat) (s : State) : Prop where
  | halted {k : Nat} {t : State} (hk : k ≤ n) (hr : Reaches k s t) (ht : t.flag .halt = true)
      (hd : drive n s = .halted t)
  | faulted {k : Nat} {u : State} {f : Fault} (hk : k < n) (hr : Reaches k s u) (hu : u.flag .halt = false)
      (hf : step u = .fault f) (hd : drive n s = .faulted (stepPort u).1 f)
  | running {t : State} (hr : Reaches n s t) (ht : t.flag .halt = false) (hd : drive n s = .running t)

/-- A step before the loop does not change how it stands. -/
theorem DriveCase.cons {n : Nat} {s u : State} (hs : s.flag .halt = false) (hu : step s = .next u)
    (h : DriveCase n u) : DriveCase (n + 1) s := by
  have hdrive := drive_succ_of_next hs hu n
  cases h with
  | halted hk hr ht hd => exact .halted (Nat.succ_le_succ hk) (hr.cons hs hu) ht (hdrive.trans hd)
  | faulted hk hr hv hf hd => exact .faulted (Nat.succ_lt_succ hk) (hr.cons hs hu) hv hf (hdrive.trans hd)
  | running hr ht hd => exact .running (hr.cons hs hu) ht (hdrive.trans hd)

/-- ALL THE LOOP CAN DO, by induction on its steps. -/
theorem drive_cases (n : Nat) (s : State) : DriveCase n s := by
  induction n generalizing s with
  | zero =>
    cases hs : s.flag .halt with
    | true => exact .halted le_rfl (reaches_zero s) hs (drive_of_halt hs 0)
    | false => exact .running (reaches_zero s) hs (drive_zero hs)
  | succ n ih =>
    cases hs : s.flag .halt with
    | true => exact .halted (Nat.zero_le _) (reaches_zero s) hs (drive_of_halt hs _)
    | false =>
      cases hst : step s with
      | next u => exact (ih u).cons hs hst
      | fault f => exact .faulted n.succ_pos (reaches_zero s) hs hst (drive_succ_of_fault hs hst n)
      | refused reason => exact absurd hst (noStepIsRefused s reason)

theorem drive_eq_halted_iff {n : Nat} {s t : State} :
    drive n s = .halted t ↔ ∃ k, k ≤ n ∧ Reaches k s t ∧ t.flag .halt = true := by
  constructor
  · intro h
    cases drive_cases n s with
    | halted hk hr ht hd => cases hd.symm.trans h; exact ⟨_, hk, hr, ht⟩
    | faulted _ _ _ _ hd => cases hd.symm.trans h
    | running _ _ hd => cases hd.symm.trans h
  · rintro ⟨k, hk, hr, ht⟩
    obtain ⟨m, rfl⟩ := Nat.exists_eq_add_of_le' hk
    rw [drive_of_reaches hr, drive_of_halt ht]

theorem drive_eq_faulted_iff {n : Nat} {s t : State} {f : Fault} :
    drive n s = .faulted t f ↔
      ∃ k u, k < n ∧ (Reaches k s u ∧ u.flag .halt = false) ∧ step u = .fault f ∧ t = (stepPort u).1 := by
  constructor
  · intro h
    cases drive_cases n s with
    | halted _ _ _ hd => cases hd.symm.trans h
    | faulted hk hr hu hf hd => cases hd.symm.trans h; exact ⟨_, _, hk, ⟨hr, hu⟩, hf, rfl⟩
    | running _ _ hd => cases hd.symm.trans h
  · rintro ⟨k, u, hk, ⟨hr, hu⟩, hf, rfl⟩
    obtain ⟨m, rfl⟩ := Nat.exists_eq_add_of_le' hk
    rw [show m + k.succ = m + 1 + k by omega, drive_of_reaches hr, drive_succ_of_fault hu hf]

theorem drive_eq_running_iff {n : Nat} {s t : State} :
    drive n s = .running t ↔ Reaches n s t ∧ t.flag .halt = false := by
  constructor
  · intro h
    cases drive_cases n s with
    | halted _ _ _ hd => cases hd.symm.trans h
    | faulted _ _ _ _ hd => cases hd.symm.trans h
    | running hr ht hd => cases hd.symm.trans h; exact ⟨hr, ht⟩
  · rintro ⟨hr, ht⟩
    rw [← Nat.zero_add n, drive_of_reaches hr, drive_zero ht]

/-- Settles O55: how the loop stands is decided by the first state with Halt, the first fault and the number of steps. -/
theorem theHostLoopStopsAtTheFirstHalt : Obligations.TheHostLoopStopsAtTheFirstHalt := by
  refine ⟨fun n s t => drive_eq_halted_iff.trans ?halted, fun n s t f => drive_eq_faulted_iff.trans ?faulted,
    fun n s t => drive_eq_running_iff.trans reaches_and_unhalted_iff⟩
  case halted =>
    exact exists_congr fun k => and_congr_right fun _ => and_right_comm.trans and_assoc
  case faulted =>
    refine exists_congr fun k => exists_congr fun u => and_congr_right fun _ => ?_
    rw [reaches_and_unhalted_iff, and_right_comm, and_assoc, and_assoc]

end Sys2Proof.Machine

/-! What stands at PC and runs (R40, R100), the register codes (R20, R21) and the values at creation (R36). -/

namespace Sys2Proof.Machine

open Sys2Proof.Laws

/-- Decoding an encoding gives the instruction back and leaves what follows (R90). -/
theorem decode_encode (i : Instr) (rest : List Byte) : decode (encode i ++ rest) = .ok (i, rest) := by
  revert rest
  change RoundTrip.Statement i
  cases i with
  | movIR v q => exact RoundTrip.movIR v q
  | movRR r q => exact RoundTrip.movRR r q
  | movMiR v q => exact RoundTrip.movMiR v q
  | movMrR r q => exact RoundTrip.movMrR r q
  | movIMr v q => exact RoundTrip.movIMr v q
  | movRMr r q => exact RoundTrip.movRMr r q
  | movMiMi v w => exact RoundTrip.movMiMi v w
  | addIR v q => exact RoundTrip.addIR v q
  | addRR r q => exact RoundTrip.addRR r q
  | addMiR v q => exact RoundTrip.addMiR v q
  | addMrR r q => exact RoundTrip.addMrR r q
  | addIMr v q => exact RoundTrip.addIMr v q
  | addRMr r q => exact RoundTrip.addRMr r q
  | addMiMi v w => exact RoundTrip.addMiMi v w
  | subIR v q => exact RoundTrip.subIR v q
  | subRR r q => exact RoundTrip.subRR r q
  | subMiR v q => exact RoundTrip.subMiR v q
  | subMrR r q => exact RoundTrip.subMrR r q
  | subIMr v q => exact RoundTrip.subIMr v q
  | subRMr r q => exact RoundTrip.subRMr r q
  | subMiMi v w => exact RoundTrip.subMiMi v w
  | notReg r => exact RoundTrip.notReg r
  | notMemImm v => exact RoundTrip.notMemImm v
  | notMemReg r => exact RoundTrip.notMemReg r
  | not6Reg r => exact RoundTrip.not6Reg r
  | not6MemImm v => exact RoundTrip.not6MemImm v
  | not6MemReg r => exact RoundTrip.not6MemReg r
  | nop => exact RoundTrip.nop
  | halt => exact RoundTrip.halt

/-- An encoding is as long as R86 says. -/
theorem length_encode (i : Instr) : (encode i).length = i.length := by cases i <;> rfl

theorem Instr.length_le_maxLength (i : Instr) : i.length ≤ maxLength := by
  cases i <;> simp [Instr.length, maxLength]

/-- The encoding of an instruction runs as it, wherever it stands at PC. -/
theorem runsAs_encode (i : Instr) : RunsAs (encode i) i :=
  runsAs_of_decode (length_encode i ▸ Instr.length_le_maxLength i) (decode_encode i)

/-- Settles O12: the step on what decodes, the round trip of an encoding, and the bytes of the window. -/
theorem stepRunsTheDecodedInstruction : Obligations.StepRunsTheDecodedInstruction := by
  refine ⟨fun s i rest hs hd _ => step_of_decode hs hd, runsAs_encode, fun s k hk hcap => ?_⟩
  have hlen : k < (fetchWindow s).length := by
    rw [length_fetchWindow, maxLength]
    omega
  rw [List.getElem?_eq_getElem hlen, getElem_fetchWindow]

/-- Settles O47: the table of codes, and the read-after-write law of the register file. -/
theorem theSevenRegistersHoldWhatIsWritten : Obligations.TheSevenRegistersHoldWhatIsWritten :=
  ⟨rfl, rfl, rfl, rfl, rfl, rfl, rfl, fun _ h => regOfCode_eq_none.2 h, State.reg_setReg⟩

/-- Settles O52: each value is the field of the created state. -/
theorem creationGivesTheStatedValues : Obligations.CreationGivesTheStatedValues :=
  fun _ => ⟨fun _ => rfl, rfl, rfl, rfl, rfl, rfl, rfl, rfl, rfl, rfl⟩

end Sys2Proof.Machine

/-! The memory: bytes and words (R52, R61), the bounds check (R55), what an instruction stores (R54), and fetching where
the memory ends or nothing was written (R28, R66). -/

namespace Sys2Proof.Machine

/-! ### Bytes, words and the bounds check -/

/-- Settles O48, by the read-after-write law of a byte. -/
theorem memoryReadsTheLastByteWritten : Obligations.MemoryReadsTheLastByteWritten :=
  ⟨fun _ => rfl, fun _ hwf addr v => ⟨Memory.write_wf hwf addr v, Memory.read_write hwf addr v⟩⟩

/-- The word read at an address is the one whose bytes stand there. -/
theorem wordAt_readWord (m : Memory) (addr : Nat) : WordAt m addr (m.readWord addr) :=
  fun _ hk => (Memory.byteAt_readWord m addr hk).symm

/-- Settles O49: what a word write does inside and outside its eight bytes, what a word read is, and the bytes of a word
field. -/
theorem wordsAreBigEndian : Obligations.WordsAreBigEndian :=
  ⟨fun _ hwf addr v =>
    ⟨wordAt_writeWord hwf addr v, Memory.readWord_writeWord hwf addr v,
      fun _ hx => Memory.read_writeWord_outside hwf addr v hx⟩,
    fun m addr => ⟨wordAt_readWord m addr, fun _ h => readWord_of_wordAt h⟩,
    getElem_bytesOfWord⟩

/-- Settles O50: each access is defined as its bounds check, and at the default `BOUNDS_CHECK` what fails it is a
MemoryFault. -/
theorem accessesAreBoundsChecked : Obligations.AccessesAreBoundsChecked :=
  ⟨fun _ _ _ _ => rfl, fun _ _ _ _ => rfl, fun _ _ _ _ => rfl, fun _ _ _ _ => rfl, fun _ _ _ _ => rfl⟩

/-! ### What an instruction stores -/

/-- An instruction that stores nothing leaves the memory as it is. -/
theorem exec_mem_of_storeOf_none {i : Instr} {s t : State} (h : exec i s = .next t) (hstore : storeOf i s = none) :
    t.mem = s.mem := by
  obtain ⟨_, _, _, _, _, rfl⟩ | ⟨_, _, _, hst, _⟩ | ⟨_, _, _, hst, _⟩ | ⟨_, rfl⟩ | ⟨_, rfl⟩ := exec_next h
  · rw [State.mem_setReg, State.mem_advance]
  · rw [hstore] at hst; cases hst
  · rw [hstore] at hst; cases hst
  · rfl
  · rfl

/-- An instruction that stores does so in range, and what it does to the memory is write that many bytes there. -/
theorem exec_mem_of_storeOf_some {i : Instr} {s t : State} {addr : Word} {n : Nat} (h : exec i s = .next t)
    (hstore : storeOf i s = some (addr, n)) :
    addr.toNat + n ≤ Config.memCapacity ∧
      ∃ bytes : List Byte, bytes.length = n ∧ t.mem = s.mem.writeList addr.toNat bytes := by
  obtain ⟨_, _, _, hst, _⟩ | ⟨_, v, _, hst, _, hr, rfl⟩ | ⟨_, v, _, hst, _, hr, rfl⟩ | ⟨rfl, _⟩ | ⟨rfl, _⟩ := exec_next h
  · rw [hstore] at hst; cases hst
  · rw [hstore] at hst; cases hst
    exact ⟨hr, bytesOfWord v, rfl, rfl⟩
  · rw [hstore] at hst; cases hst
    exact ⟨hr, [v], rfl, rfl⟩
  · cases hstore
  · cases hstore

/-- Settles O19: the bytes stored are written in range, and a write leaves what is outside them. -/
theorem onlyTheStoredBytesChange : Obligations.OnlyTheStoredBytesChange := by
  intro i s t hwf h
  refine ⟨fun hstore x => by rw [exec_mem_of_storeOf_none h hstore], fun addr n hstore => ?_⟩
  obtain ⟨hr, bytes, rfl, hmem⟩ := exec_mem_of_storeOf_some h hstore
  refine ⟨hr, fun x hx => ?_⟩
  rw [hmem, Memory.read_writeList_outside hwf addr.toNat bytes hx]

/-! ### Fetching past the end, and where nothing was written -/

/-- Where fewer bytes stand at PC than the instruction wants, the memory ends before what it wants does. -/
theorem lt_of_missingIn_fetchWindow {s : State} {offset : Nat} {w : Width} (h : MissingIn (fetchWindow s) offset w) :
    Config.memCapacity < s.pc.toNat + offset + bytesOf w := by
  obtain ⟨_, hshort, hmax⟩ := h
  rw [length_fetchWindow] at hshort
  omega

/-- A PC at or above the capacity fetches no byte at all (R28). -/
theorem step_of_capacity_le_pc {s : State} (hs : s.status = .running) (hpc : Config.memCapacity ≤ s.pc.toNat) :
    step s = .fault (.memoryFault s.pc .byte .fetch s.pc) := by
  have hd : decode (fetchWindow s) = .error (.truncated 0 .byte) := by rw [fetchWindow_eq_nil hpc]; rfl
  rw [step_of_reject hs hd, rejectOutcome, accessFault_default, BitVec.add_zero]

/-- Settles O6: a rejection for want of bytes is a fetch fault, and bytes are wanting only where the memory ends. -/
theorem fetchPastTheEndRaisesMemoryFault : Obligations.FetchPastTheEndRaisesMemoryFault := by
  refine ⟨fun s offset w hs hd => ⟨step_of_reject hs hd, ?_⟩, fun _ => step_of_capacity_le_pc⟩
  rw [decode_eq_parse] at hd
  exact lt_of_missingIn_fetchWindow (parse_truncated hd)

/-- One byte below the capacity stands at PC as what it reads. -/
theorem atPc_byte {s : State} {b : Byte} (hb : s.mem.read s.pc.toNat = b) (hpc : s.pc.toNat < Config.memCapacity) :
    AtPc s [b] := by
  refine ⟨hpc, fun k hk => ?_⟩
  obtain rfl : k = 0 := Nat.lt_one_iff.1 hk
  exact hb

/-- Settles O51: the byte 0x00 is the encoding of NOP, which runs wherever it stands. -/
theorem unwrittenMemoryRunsAsNop : Obligations.UnwrittenMemoryRunsAsNop :=
  fun s hs hb => ⟨fun hpc => runsAs_encode .nop s hs (atPc_byte hb hpc), step_of_capacity_le_pc hs⟩

end Sys2Proof.Machine

/-! The encoding (R70 to R90): what an encoding is made of, what clearing the ignored bits leaves as it was, and what the
tables do not recognize. -/

namespace Sys2Proof.Machine

/-! ### What an encoding is made of -/

/-- The shape of an instruction's encoding (R72, R73, R81, R89): the opcode byte of its mnemonic, a recognized mode or
kind, a zero nibble where no register is named, and as many field bytes as the operand kinds want. -/
inductive EncodedAs (i : Instr) : Prop where
  | control (o : Opcode) (ho : o = .nop ∨ o = .halt) (he : encode i = [o.byte]) (hm : mnemonicByte i.toSource = o.byte)
  | two (op : Op2) (m : Mode) (rs rd : Nibble) (fields : List Byte) (he : encode i = encodeF2 op m rs rd fields)
      (hm : mnemonicByte i.toSource = (Opcode.two op).byte) (hs : m.src.usesReg = false → rs = 0)
      (hd : m.dst.usesReg = false → rd = 0)
      (hf : fields.length = 8 * (m.src.hasField.toNat + m.dst.hasField.toNat))
  | one (op : Op1) (k : Nibble) (kind : Kind) (r : Nibble) (field : List Byte) (he : encode i = encodeF1 op k r field)
      (hm : mnemonicByte i.toSource = (Opcode.one op).byte) (hk : cmplKindTable k = some kind)
      (hr : kind.usesReg = false → r = 0) (hf : field.length = 8 * kind.hasField.toNat)

theorem encodedAs (i : Instr) : EncodedAs i := by
  cases i
  case nop => exact .control .nop (.inl rfl) rfl rfl
  case halt => exact .control .halt (.inr rfl) rfl rfl
  case movIR | movMiR | movIMr | addIR | addMiR | addIMr | subIR | subMiR | subIMr =>
    exact .two _ _ _ _ _ rfl rfl (fun _ => rfl) nofun rfl
  case movRR | movMrR | movRMr | addRR | addMrR | addRMr | subRR | subMrR | subRMr =>
    exact .two _ _ _ _ _ rfl rfl nofun nofun rfl
  case movMiMi | addMiMi | subMiMi => exact .two _ _ _ _ _ rfl rfl (fun _ => rfl) (fun _ => rfl) rfl
  case notReg | notMemReg | not6Reg | not6MemReg => exact .one _ _ _ _ _ rfl rfl rfl nofun rfl
  case notMemImm | not6MemImm => exact .one _ _ _ _ _ rfl rfl rfl (fun _ => rfl) rfl

theorem head?_encode (i : Instr) : (encode i).head? = some (mnemonicByte i.toSource) := by
  cases encodedAs i with
  | control o ho he hm => rw [he, hm]; rfl
  | two op m rs rd fields he hm => rw [he, hm]; rfl
  | one op k kind r field he hm => rw [he, hm]; rfl

theorem length_encodeF2 (op : Op2) (m : Mode) (rs rd : Nibble) (fields : List Byte) :
    (encodeF2 op m rs rd fields).length = 3 + fields.length := Nat.add_comm _ 3

theorem length_encodeF1 (op : Op1) (k r : Nibble) (field : List Byte) :
    (encodeF1 op k r field).length = 2 + field.length := Nat.add_comm _ 2

/-- The first two bytes of an encoding give its length (R85). -/
theorem lengthFrom_of_encode {i : Instr} {op : Byte} {bytes rest : List Byte} (h : encode i ++ rest = op :: bytes) :
    lengthFrom op (bytes.headD 0) = some i.length := by
  rw [← length_encode]
  cases encodedAs i with
  | control o ho he =>
    rw [he] at h ⊢
    cases h
    obtain rfl | rfl := ho <;> rfl
  | two o m rs rd fields he _ _ _ hf =>
    rw [he] at h ⊢
    cases h
    simp [lengthFrom, length_encodeF2, hf]
  | one o k kind r field he _ hk _ hf =>
    rw [he] at h ⊢
    cases h
    simp [lengthFrom, length_encodeF1, hk, hf]

/-- An encoding has no ignored bit set, whatever follows it (R89). -/
theorem hasIgnoredBits_encode (i : Instr) (rest : List Byte) : hasIgnoredBits (encode i ++ rest) = false := by
  cases encodedAs i with
  | control o ho he =>
    rw [he]
    obtain rfl | rfl := ho <;> rfl
  | two op m rs rd fields he _ hs hd =>
    rw [he]
    simpa [hasIgnoredBits, encodeF2, ignoredBitsF2] using ⟨hs, hd⟩
  | one op k kind r field he _ hk hr =>
    rw [he]
    simp only [hasIgnoredBits, encodeF1, ignoredBitsF1, List.cons_append, opcodeOf_byte, hiNibble_byteOf, hk]
    cases kind <;> simp_all [Kind.usesReg]

/-! ### What clearing the ignored bits leaves as it was -/

theorem clearIgnored_two {b : Byte} {op : Op2} (h : opcodeOf b = some (.two op)) (bytes : List Byte) :
    clearIgnored (b :: bytes) = b :: clearIgnoredF2 bytes := by simp [clearIgnored, h]

theorem clearIgnored_one {b : Byte} {op : Op1} (h : opcodeOf b = some (.one op)) (bytes : List Byte) :
    clearIgnored (b :: bytes) = b :: clearIgnoredF1 bytes := by simp [clearIgnored, h]

theorem head?_clearIgnored (bytes : List Byte) : (clearIgnored bytes).head? = bytes.head? := by
  cases bytes with
  | nil => rfl
  | cons b bytes =>
    simp only [clearIgnored]
    split <;> rfl

theorem length_clearIgnoredF2 (bytes : List Byte) : (clearIgnoredF2 bytes).length = bytes.length := by
  unfold clearIgnoredF2
  split
  · split <;> rfl
  · rfl

theorem length_clearIgnoredF1 (bytes : List Byte) : (clearIgnoredF1 bytes).length = bytes.length := by
  cases bytes <;> rfl

theorem length_clearIgnored (bytes : List Byte) : (clearIgnored bytes).length = bytes.length := by
  cases bytes with
  | nil => rfl
  | cons b bytes =>
    simp only [clearIgnored]
    split <;> simp [length_clearIgnoredF2, length_clearIgnoredF1]

/-- The mode nibble is no ignored bit (R74). -/
theorem loNibble_headD_clearIgnoredF2 (bytes : List Byte) :
    loNibble ((clearIgnoredF2 bytes).headD 0) = loNibble (bytes.headD 0) := by
  unfold clearIgnoredF2
  split
  · split <;> simp
  · rfl

/-- The complement kind is no ignored bit (R83). -/
theorem hiNibble_headD_clearIgnoredF1 (bytes : List Byte) :
    hiNibble ((clearIgnoredF1 bytes).headD 0) = hiNibble (bytes.headD 0) := by
  unfold clearIgnoredF1
  split
  · split <;> simp
  · rfl

theorem lengthFrom_clearIgnored (b : Byte) (bytes : List Byte) :
    lengthFrom b ((clearIgnored (b :: bytes)).tail.headD 0) = lengthFrom b (bytes.headD 0) := by
  match ho : opcodeOf b with
  | none | some .nop | some .halt => simp only [lengthFrom, ho]
  | some (.two op) =>
    simp only [lengthFrom, ho, clearIgnored_two ho, List.tail_cons, loNibble_headD_clearIgnoredF2]
  | some (.one op) =>
    simp only [lengthFrom, ho, clearIgnored_one ho, List.tail_cons, hiNibble_headD_clearIgnoredF1]

/-- An F2 instruction's ignored bits stand in its first three bytes. -/
theorem drop_cons_clearIgnoredF2 (b : Byte) (bytes : List Byte) {n : Nat} (hn : 3 ≤ n) :
    (b :: clearIgnoredF2 bytes).drop n = (b :: bytes).drop n := by
  obtain ⟨k, rfl⟩ := Nat.exists_eq_add_of_le' hn
  unfold clearIgnoredF2
  split
  · split <;> rfl
  · rfl

/-- An F1 instruction's ignored bits stand in its first two bytes. -/
theorem drop_cons_clearIgnoredF1 (b : Byte) (bytes : List Byte) {n : Nat} (hn : 2 ≤ n) :
    (b :: clearIgnoredF1 bytes).drop n = (b :: bytes).drop n := by
  obtain ⟨k, rfl⟩ := Nat.exists_eq_add_of_le' hn
  cases bytes <;> rfl

/-- Clearing an instruction's ignored bits changes nothing past its length. -/
theorem drop_clearIgnored {b : Byte} {bytes : List Byte} {n : Nat} (h : lengthFrom b (bytes.headD 0) = some n) :
    (clearIgnored (b :: bytes)).drop n = (b :: bytes).drop n := by
  match ho : opcodeOf b with
  | none | some .nop | some .halt => simp only [clearIgnored, ho]
  | some (.two op) =>
    simp only [lengthFrom, ho, Option.map_eq_some_iff] at h
    obtain ⟨_, _, rfl⟩ := h
    rw [clearIgnored_two ho]
    exact drop_cons_clearIgnoredF2 b bytes (Nat.le_add_right _ _)
  | some (.one op) =>
    simp only [lengthFrom, ho, Option.map_eq_some_iff] at h
    obtain ⟨_, _, rfl⟩ := h
    rw [clearIgnored_one ho]
    exact drop_cons_clearIgnoredF1 b bytes (Nat.le_add_right _ _)

/-! ### The round trip, the length and the ignored bits -/

/-- ALL THE DECODER CAN READ, at the default `STRICT_IGNORED_BITS`. -/
theorem decode_ok {bytes rest : List Byte} {i : Instr} (h : decode bytes = .ok (i, rest)) :
    encode i ++ rest = clearIgnored bytes :=
  parse_ok (decode_eq_parse bytes ▸ h)

/-- Settles O7: the encoding of what is read is the bytes with their ignored bits cleared, so the bytes themselves where
none is set. -/
theorem encodeAndDecodeAreInverse : Obligations.EncodeAndDecodeAreInverse :=
  ⟨decode_encode, fun _ _ _ h hz => (clearIgnored_eq_self hz).symm.trans (decode_ok h).symm⟩

/-- The opcode byte of what decodes is its mnemonic's (R71). -/
theorem eq_mnemonicByte_of_decode {b : Byte} {bytes rest : List Byte} {i : Instr}
    (h : decode (b :: bytes) = .ok (i, rest)) : b = mnemonicByte i.toSource := by
  have hhead := congrArg List.head? (decode_ok h)
  rw [head?_clearIgnored, List.head?_append, head?_encode] at hhead
  exact (Option.some.inj hhead).symm

/-- The first two bytes of what decodes give its length (R85). -/
theorem lengthFrom_of_decode {b : Byte} {bytes rest : List Byte} {i : Instr}
    (h : decode (b :: bytes) = .ok (i, rest)) : lengthFrom b (bytes.headD 0) = some i.length := by
  rw [← lengthFrom_clearIgnored]
  apply lengthFrom_of_encode (rest := rest)
  rw [decode_ok h, List.cons_head?_tail (head?_clearIgnored _)]

/-- Settles O9: the encoding of what is read differs from the bytes in ignored bits only, which neither the length nor
what follows the instruction depends on. -/
theorem lengthIsKnownFromTwoBytes : Obligations.LengthIsKnownFromTwoBytes := by
  intro b bytes i rest h
  have hlen := lengthFrom_of_decode h
  refine ⟨hlen, ?_, ?_⟩
  · rw [← drop_clearIgnored hlen, ← decode_ok h, ← length_encode, List.drop_left]
  · rw [← length_clearIgnored, ← decode_ok h, List.length_append, length_encode]

theorem decodeWith_true_of_decode {bytes rest : List Byte} {i : Instr} (h : decode bytes = .ok (i, rest)) :
    decodeWith true bytes = if hasIgnoredBits bytes then .error .ignoredBits else .ok (i, rest) := by
  rw [decode_eq_parse] at h
  simp [decodeWith, h]

/-- Settles O10: the bytes with their ignored bits cleared are the encoding of what is read. -/
theorem ignoredBitsAreIgnored : Obligations.IgnoredBitsAreIgnored := by
  intro bytes i rest h
  rw [← decode_ok h]
  exact ⟨decode_encode i rest, hasIgnoredBits_encode i rest, decodeWith_true_of_decode h⟩

/-! ### What the tables do not recognize -/

/-- The opcode map ends at 6 (R71). -/
theorem opcodeOf_eq_none {b : Byte} : opcodeOf b = none ↔ 6 < b.toNat := by
  revert b; decide

/-- The nine unrecognized mode nibbles (R77). -/
theorem modeTable_eq_none {n : Nibble} :
    modeTable n = none ↔ n ∈ [0x0, 0x1, 0x4, 0x5, 0x8, 0x9, 0xD, 0xE, 0xF] := by
  revert n; decide

/-- The complement kinds end at 2 (R84). -/
theorem cmplKindTable_eq_none {k : Nibble} : cmplKindTable k = none ↔ 2 < k.toNat := by
  revert k; decide

theorem opcodeOf_two_of_mem {b : Byte} (h : b ∈ [0x02, 0x03, 0x04]) : ∃ op, opcodeOf b = some (.two op) := by
  simp only [List.mem_cons, List.not_mem_nil, or_false] at h
  obtain rfl | rfl | rfl := h
  · exact ⟨.mov, rfl⟩
  · exact ⟨.add, rfl⟩
  · exact ⟨.sub, rfl⟩

theorem opcodeOf_one_of_mem {b : Byte} (h : b ∈ [0x05, 0x06]) : ∃ op, opcodeOf b = some (.one op) := by
  simp only [List.mem_cons, List.not_mem_nil, or_false] at h
  obtain rfl | rfl := h
  · exact ⟨.not, rfl⟩
  · exact ⟨.not6, rfl⟩

theorem raises_opcode {b : Byte} (h : 6 < b.toNat) : Raises [b] (.decodeFault .opcode b) :=
  raises_of_decode (e := .opcode b) (by simp [maxLength])
    (fun rest => by simp [decode_eq_parse, parse, opcodeOf_eq_none.2 h]) (fun _ => rfl)

theorem raises_mode {b mode : Byte} {op : Op2} (hb : opcodeOf b = some (.two op))
    (h : modeTable (loNibble mode) = none) : Raises [b, mode] (.decodeFault .mode mode) :=
  raises_of_decode (e := .mode mode) (by simp [maxLength])
    (fun rest => by simp [decode_eq_parse, parse, hb, parseF2, h]) (fun _ => rfl)

theorem raises_cmode {b cm : Byte} {op : Op1} (hb : opcodeOf b = some (.one op))
    (h : cmplKindTable (hiNibble cm) = none) : Raises [b, cm] (.decodeFault .cmode cm) :=
  raises_of_decode (e := .cmode cm) (by simp [maxLength])
    (fun rest => by simp [decode_eq_parse, parse, hb, parseF1, h]) (fun _ => rfl)

/-- Settles O2: the opcode byte of what decodes and of what is encoded, and the bytes the opcode map leaves out. -/
theorem opcodeByteSelectsTheInstruction : Obligations.OpcodeByteSelectsTheInstruction :=
  ⟨fun _ _ _ _ => eq_mnemonicByte_of_decode, head?_encode, fun _ => raises_opcode⟩

/-- Settles O4: what each table leaves out is rejected whatever follows it, and the bytes of NOP and HALT run. -/
theorem unrecognizedBytesRaiseDecodeFault : Obligations.UnrecognizedBytesRaiseDecodeFault := by
  refine ⟨fun b => raises_opcode, fun op hop mode hmode => ?_, fun op hop cm hcm => ?_, fun s hs hpc k b start => ?_⟩
  · obtain ⟨o, ho⟩ := opcodeOf_two_of_mem hop
    exact raises_mode ho (modeTable_eq_none.2 hmode)
  · obtain ⟨o, ho⟩ := opcodeOf_one_of_mem hop
    exact raises_cmode ho (cmplKindTable_eq_none.2 hcm)
  · obtain hpc | hpc := hpc
    · rw [runsAs_encode .nop s hs hpc]
      exact nofun
    · rw [runsAs_encode .halt s hs hpc]
      exact nofun

/-! ### The spec's words, the mode bits and what the encoder emits -/

/-- Settles O1: eight fixed words, each decoded by computation. -/
theorem specWordsDecode : Obligations.SpecWordsDecode := ⟨rfl, rfl, rfl, rfl, rfl, rfl, rfl, rfl⟩

/-- Settles O3: a recognized nibble is the nibble of its combination, whose four bits are the ones stated. -/
theorem modeNibbleBitsNameTheOperandKinds : Obligations.ModeNibbleBitsNameTheOperandKinds := by
  intro n m h
  rw [← nibble_of_modeTable h]
  cases m <;> exact ⟨rfl, rfl, rfl, rfl⟩

/-- Settles O8: an encoding is as long as its instruction, whose length is its operand pair's. -/
theorem encodingsHaveTheTabulatedLengths : Obligations.EncodingsHaveTheTabulatedLengths := by
  simp only [Obligations.EncodingsHaveTheTabulatedLengths, length_encode]
  refine ⟨fun op _ _ => ?_, fun op _ _ => ?_, fun op _ _ => ?_, fun op _ => ?_, fun op _ => ?_, rfl, rfl⟩
  · cases op <;> exact ⟨rfl, rfl, rfl⟩
  · cases op <;> exact ⟨rfl, rfl, rfl⟩
  · cases op <;> rfl
  · cases op <;> exact ⟨rfl, rfl⟩
  · cases op <;> rfl

/-- A line stands for an instruction exactly when it is well-formed (R76, R84, R89). -/
theorem instr?_eq_none {line : Source} : line.instr? = none ↔ line.wellFormed = false := by
  cases line with
  | two op src dst => cases src <;> cases dst <;> simp [Source.instr?, Source.wellFormed, Operand.isPlace, recognizedPair]
  | one op operand => cases operand <;> simp [Source.instr?, Source.wellFormed, Operand.isPlace]
  | nop | halt => simp [Source.instr?, Source.wellFormed]

/-- Settles O11: the encoder refuses the lines that stand for no instruction, and emits each format byte by byte. -/
theorem encoderEmitsTheFormatsAndRefusesOtherPairs : Obligations.EncoderEmitsTheFormatsAndRefusesOtherPairs := by
  refine ⟨fun line => Option.map_eq_none_iff.trans instr?_eq_none, ?_, ?_, rfl, rfl⟩
  · rintro op o r q v w rfl
    cases op <;> exact ⟨rfl, rfl, rfl, rfl, rfl, rfl, rfl⟩
  · rintro op o r v rfl
    cases op <;> exact ⟨rfl, rfl, rfl⟩

end Sys2Proof.Machine

/-! The step is the fetch-decode-execute sequence (R100): each piece of the byte-by-byte sequence of
Machine/Sequence.lean agrees with its piece of the decoder, so that the two come to one outcome. And PC while an
instruction operates and after it (R101). -/

namespace Sys2Proof.Machine

/-! ### What the sequence and the decoder are compared by -/

/-- What a step does at `u` with what the decoder made of the bytes there (R100, R202 to R204). -/
def runParsed (u : State) : Except Reject (Instr × List Byte) → Host.Outcome State Fault Refusal
  | .error e => rejectOutcome u.pc e
  | .ok (i, _) => exec i u

/-- In the instruction at `u` the rest of the sequence comes to the outcome that the rest of the decode comes to. The
rules below carry it back over one piece of both at a time, each `n` bytes into the instruction. -/
def Agrees (u : State) (sequence : Except Fault State) (parsed : Except Reject (Instr × List Byte)) : Prop :=
  outcomeOf sequence = runParsed u parsed

/-- The step runs what the decoder makes of the window at PC, with the host's load closed (R100, log entry 4). -/
theorem step_eq_runParsed {s : State} (hs : s.status = .running) :
    step s = runParsed s.closeLoad (parse (fetchWindow s.closeLoad)) := by
  rw [← decode_eq_parse]
  change _ = runParsed s.closeLoad (decode (fetchWindow s))
  cases hd : decode (fetchWindow s) with
  | error e => exact step_of_reject hs hd
  | ok p => exact step_of_decode hs hd

/-! ### One rule per fetch and check -/

/-- A byte fetched is the next byte of the window; with none left the fetch faults where the decoder finds the bytes cut
short. -/
theorem agrees_fetch8 {u : State} {n : Nat} {k : Byte × State → Except Fault State}
    {parser : List Byte → Except Reject (Instr × List Byte)} (hn : n ≤ (fetchWindow u).length) (hm : n < maxLength)
    (hnil : parser [] = .error (.truncated n .byte))
    (hk : ∀ b, n + 1 ≤ (fetchWindow u).length →
      Agrees u (k (b, u.advance (n + 1))) (parser (b :: (fetchWindow u).drop (n + 1)))) :
    Agrees u (fetch8 u.pc (u.advance n) >>= k) (parser ((fetchWindow u).drop n)) := by
  rw [fetch8_advance hn hm]
  by_cases hlt : n < (fetchWindow u).length
  · rw [List.drop_eq_getElem_cons hlt]
    exact hk _ hlt
  · rw [List.drop_eq_nil_of_le (Nat.le_of_not_lt hlt), hnil]
    rfl

/-- A word fetched for an operand is the field the decoder takes. -/
theorem agrees_fetchWord {α : Type} {u : State} {n : Nat} {operand : Word × State → Except Fault α}
    {k : α → Except Fault State} {parser : Word × List Byte → Except Reject (Instr × List Byte)}
    (hn : n ≤ (fetchWindow u).length) (hm : n + 8 ≤ maxLength)
    (hk : ∀ v, n + 8 ≤ (fetchWindow u).length →
      Agrees u (operand (v, u.advance (n + 8)) >>= k) (parser (v, (fetchWindow u).drop (n + 8)))) :
    Agrees u ((fetchWord u.pc (u.advance n) >>= operand) >>= k) (takeWord n ((fetchWindow u).drop n) >>= parser) := by
  rw [fetchWord_advance hn hm]
  cases hw : takeWord n ((fetchWindow u).drop n) with
  | error e =>
    obtain ⟨rfl, _⟩ := takeWord_error hw
    rfl
  | ok p =>
    obtain ⟨v, rest⟩ := p
    obtain ⟨rfl, hlen⟩ := drop_takeWord hw
    exact hk v hlen

/-- A register code checked is the code the decoder checks (R79, R83). -/
theorem agrees_checkReg {u : State} {code : Nibble} {k : Reg → Except Fault State}
    {parser : Reg → Except Reject (Instr × List Byte)} (hk : ∀ r, Agrees u (k r) (parser r)) :
    Agrees u (checkReg u.pc code >>= k) (takeReg code >>= parser) := by
  rw [checkReg_eq]
  cases hr : takeReg code with
  | error e =>
    obtain ⟨rfl, _⟩ := takeReg_error hr
    rfl
  | ok r => exact hk r

/-! ### The two formats and the step

In each combination the checks and fetches come in one order on both sides (R208); what is left then is that the arm of
`exec` is the operation on those operands, by computation. -/

/-- After the opcode of an F2 instruction (R73, R79, R80). -/
theorem agrees_sequenceF2 {u : State} (op : Op2) (hn : 1 ≤ (fetchWindow u).length) :
    Agrees u (sequenceF2 op u.pc (u.advance 1)) (parseF2 op ((fetchWindow u).drop 1)) := by
  refine agrees_fetch8 hn (by decide) rfl fun mode hmode => ?_
  simp only [parseF2]
  cases modeTable (loNibble mode) with
  | none => rfl
  | some m =>
    refine agrees_fetch8 (parser := parseF2Operands op m) hmode (by decide) rfl fun sel hsel => ?_
    cases m with
    | ir | miR | iMr =>
      refine agrees_checkReg fun rd => agrees_fetchWord hsel (by decide) fun v _ => ?_
      cases op <;> rfl
    | rr | mrR | rMr =>
      refine agrees_checkReg fun rs => agrees_checkReg fun rd => ?_
      cases op <;> rfl
    | miMi =>
      refine agrees_fetchWord hsel (by decide) fun sa hsa => agrees_fetchWord hsa (by decide) fun da _ => ?_
      cases op <;> rfl

/-- After the opcode of an F1 instruction: the recognized kinds are three, and an immediate is none of them (R84). -/
theorem agrees_sequenceF1 {u : State} (op : Op1) (hn : 1 ≤ (fetchWindow u).length) :
    Agrees u (sequenceF1 u.pc (u.advance 1)) (parseF1 op ((fetchWindow u).drop 1)) := by
  refine agrees_fetch8 hn (by decide) rfl fun cm hcm => ?_
  simp only [parseF1]
  cases hkind : cmplKindTable (hiNibble cm) with
  | none => rfl
  | some kind =>
    obtain ⟨_, rfl⟩ | ⟨_, rfl⟩ | ⟨_, rfl⟩ := cmplKindTable_cases hkind
    · refine agrees_checkReg fun r => ?_
      cases op <;> rfl
    · refine agrees_fetchWord hcm (by decide) fun da _ => ?_
      cases op <;> rfl
    · refine agrees_checkReg fun r => ?_
      cases op <;> rfl

theorem State.advance_zero (s : State) : s.advance 0 = s := by simp [State.advance]

/-- The whole sequence, from the opcode byte on. -/
theorem agrees_stepSequence (u : State) : Agrees u (stepSequence u) (parse (fetchWindow u)) := by
  have hfetch : fetch8 u.pc u = fetch8 u.pc (u.advance 0) := by rw [State.advance_zero]
  simp only [stepSequence]
  rw [hfetch]
  refine agrees_fetch8 (parser := parse) (Nat.zero_le _) (by decide) rfl fun b hb => ?_
  simp only [parse]
  cases opcodeOf b with
  | none => rfl
  | some o =>
    cases o with
    | nop => rfl
    | halt => rfl
    | two op => exact agrees_sequenceF2 op hb
    | one op => exact agrees_sequenceF1 op hb

/-- Settles O13: the step runs what the decoder reads, and the sequence agrees with the decoder piece by piece. -/
theorem stepIsTheFetchDecodeExecuteSequence : Obligations.StepIsTheFetchDecodeExecuteSequence :=
  fun s hs => (step_eq_runParsed hs).trans (agrees_stepSequence s.closeLoad).symm

/-! ### PC past the instruction -/

/-- What an instruction does not write to PC leaves PC past its bytes. -/
theorem exec_pc_of_ne_destReg {i : Instr} {s t : State} (h : exec i s = .next t) (hd : destReg i ≠ some .pc) :
    t.pc = s.pc + BitVec.ofNat 64 i.length := by
  obtain ⟨rd, v, hrd, _, _, rfl⟩ | ⟨_, _, _, _, _, _, rfl⟩ | ⟨_, _, _, _, _, _, rfl⟩ | ⟨rfl, rfl⟩ | ⟨rfl, rfl⟩ :=
    exec_next h
  · have hne : Reg.pc ≠ rd := fun h => hd (hrd.trans (congrArg some h.symm))
    rw [← State.reg_pc, State.reg_setReg_ne _ _ hne, State.reg_advance_pc]
  · rfl
  · rfl
  · rfl
  · rfl

/-- Settles O20: what PC is after every instruction, and then PC as each kind of operand, which the operation sees past
the bytes. -/
theorem pcIsPastTheInstructionUnlessWritten : Obligations.PcIsPastTheInstructionUnlessWritten := by
  refine ⟨fun i s t => exec_pc_of_ne_destReg, fun s rd => ?_, fun s v => ?_, fun s rd hin => ?_, fun s v hwf hin => ?_,
    fun s v => ?_, fun s => ?_, fun s hwf hin => ?_⟩
  · have hsrc := resolveSource_reg s 3 s.pc .pc
    exact (execute2_reg (op := .mov) hsrc rfl).imp fun _ ⟨ht, hrd, _⟩ => ⟨ht, hrd⟩
  · exact (execute2_reg (op := .mov) (src := .imm v) (len := 11) rfl rfl).imp fun _ ⟨ht, hpc, _⟩ => ⟨ht, hpc⟩
  · have hsrc := resolveSource_memReg (s := s) (len := 3) (r := .pc) hin s.pc
    exact (execute2_reg (op := .mov) hsrc rfl).imp fun _ ⟨ht, hrd, _⟩ => ⟨ht, hrd⟩
  · have hdst := resolveDest_memReg s 11 .pc
    exact (execute2_mem (op := .mov) (src := .imm v) rfl rfl hdst hwf hin).imp
      fun _ ⟨ht, _, _, _, hword, _⟩ => ⟨ht, hword⟩
  · exact (execute2_reg (op := .add) (src := .imm v) (len := 11) rfl rfl).imp fun _ ⟨ht, hpc, _⟩ => ⟨ht, hpc⟩
  · exact (execute1_reg .pc s).imp fun _ ⟨ht, hpc, _⟩ => ⟨ht, hpc⟩
  · have hdst := resolveDest_memReg s 2 .pc
    exact (execute1_mem rfl hdst hwf hin).imp fun _ ⟨ht, _, _, _, hbyte, _⟩ => ⟨ht, hbyte⟩

end Sys2Proof.Machine

/-! How the two-operand encodings run (R73, R79, R80), for all three opcodes; and MOV (R130 to R136). -/

namespace Sys2Proof.Machine

/-! ### The two-operand encodings

The high mode nibble and an unused selector nibble may hold anything, and the used register codes are checked in order,
before a field is fetched. What tells one combination from another is what its decoder makes of the selector and the
fields, which is the hypothesis of each lemma. -/

/-- The bytes of a two-operand instruction decode as what follows their mode byte does, whatever its high nibble. -/
theorem decode_twoOperand (op : Op2) (m : Mode) (hi : Nibble) (bytes : List Byte) :
    decode ((Opcode.two op).byte :: byteOf hi m.nibble :: bytes) = parseF2Operands op m bytes := by
  rw [decode_eq_parse, parse_two, parseF2_mode]

theorem raises_registerFault {op : Op2} {m : Mode} {sel : Byte} {code : Nibble}
    (h : ∀ rest, parseF2Operands op m (sel :: rest) = .error (.register code)) (hi : Nibble) :
    Raises [(Opcode.two op).byte, byteOf hi m.nibble, sel] (.registerFault code) :=
  raises_of_decode (e := .register code) (by simp [maxLength])
    (fun rest => (decode_twoOperand op m hi (sel :: rest)).trans (h rest)) (fun _ => rfl)

theorem runsAs_twoOperand {op : Op2} {m : Mode} {sel : Byte} {fields : List Byte} {i : Instr}
    (hlen : fields.length ≤ 16) (h : ∀ rest, parseF2Operands op m (sel :: (fields ++ rest)) = .ok (i, rest))
    (hi : Nibble) : RunsAs ((Opcode.two op).byte :: byteOf hi m.nibble :: sel :: fields) i :=
  runsAs_of_decode (by simp only [List.length_cons, maxLength]; omega)
    (fun rest => (decode_twoOperand op m hi (sel :: (fields ++ rest))).trans (h rest))

/-- The three-byte encodings: both codes are checked, the source's first. -/
theorem codedRsRd {op : Op2} {m : Mode} {i : Reg → Reg → Instr}
    (hparse : ∀ sel bytes, parseF2Operands op m (sel :: bytes) =
      takeReg (hiNibble sel) >>= fun rs => takeReg (loNibble sel) >>= fun rd => .ok (i rs rd, bytes)) :
    CodedRsRd (Opcode.two op).byte m.nibble i := by
  intro hi rs rd
  refine ⟨fun hrs => ?_, fun hrs hrd => ?_, fun r q hr hq => ?_⟩
  · exact raises_registerFault (fun rest => by rw [hparse, hiNibble_byteOf, takeReg_of_invalid hrs]; rfl) hi
  · obtain ⟨r, hr⟩ := regOfCode_isSome hrs
    exact raises_registerFault
      (fun rest => by rw [hparse, hiNibble_byteOf, loNibble_byteOf, takeReg_of_some hr, takeReg_of_invalid hrd]; rfl) hi
  · exact runsAs_twoOperand (fields := []) (Nat.zero_le _)
      (fun rest => by rw [hparse, hiNibble_byteOf, loNibble_byteOf, takeReg_of_some hr, takeReg_of_some hq]; rfl) hi

/-- The eleven-byte encodings: the destination's code is checked before the field, and the source's is ignored. -/
theorem codedFieldRd {op : Op2} {m : Mode} {i : Word → Reg → Instr}
    (hparse : ∀ sel bytes, parseF2Operands op m (sel :: bytes) =
      takeReg (loNibble sel) >>= fun rd => takeWord 3 bytes >>= fun field => .ok (i field.1 rd, field.2)) :
    CodedFieldRd (Opcode.two op).byte m.nibble i := by
  intro hi rs rd
  refine ⟨fun hrd => ?_, fun v q hq => ?_⟩
  · exact raises_registerFault (fun rest => by rw [hparse, loNibble_byteOf, takeReg_of_invalid hrd]; rfl) hi
  · exact runsAs_twoOperand (fields := bytesOfWord v) (by simp)
      (fun rest => by rw [hparse, loNibble_byteOf, takeReg_of_some hq, takeWord_bytesOfWord]; rfl) hi

/-- The nineteen-byte encodings: no code is checked, and the source's field comes first. -/
theorem codedFieldField {op : Op2} {m : Mode} {i : Word → Word → Instr}
    (hparse : ∀ sel bytes, parseF2Operands op m (sel :: bytes) =
      takeWord 3 bytes >>= fun src => takeWord 11 src.2 >>= fun dst => .ok (i src.1 dst.1, dst.2)) :
    CodedFieldField (Opcode.two op).byte m.nibble i := fun hi rs rd v w =>
  runsAs_twoOperand (fields := bytesOfWord v ++ bytesOfWord w) (by simp)
    (fun rest => by simp only [hparse, List.append_assoc, takeWord_bytesOfWord, bind, Except.bind]) hi

/-! ### MOV

`exec` of a MOV is `execute2 .mov` on its operands by computation, and the value MOV writes is its source's. -/

/-- Settles O28: the sources are an immediate and a register, neither of which can fault. -/
theorem movFromImmediateOrRegisterToRegister : Obligations.MovFromImmediateOrRegisterToRegister := by
  refine ⟨codedFieldRd (op := .mov) (m := .ir) fun _ _ => rfl, codedRsRd (op := .mov) (m := .rr) fun _ _ => rfl,
    fun imm rd s => ?_, fun rs rd s => ?_⟩
  · exact execute2_reg (op := .mov) (src := .imm imm) rfl rfl
  · exact execute2_reg (op := .mov) (resolveSource_reg s 3 s.pc rs) rfl

/-- Settles O29: the sources are a word at an immediate address and a byte at the address in a register. -/
theorem movFromMemoryToRegister : Obligations.MovFromMemoryToRegister := by
  refine ⟨codedFieldRd (op := .mov) (m := .miR) fun _ _ => rfl, codedRsRd (op := .mov) (m := .mrR) fun _ _ => rfl,
    fun sa rd s hin => ?_, fun sa rd s hout => ?_, fun rs rd s hin => ?_, fun rs rd s hout => ?_⟩
  · exact execute2_reg (op := .mov) (resolveSource_memImm hin 11 s.pc) rfl
  · exact execute2_source_fault (resolveSource_memImm_fault hout 11 s.pc) rfl
  · exact execute2_reg (op := .mov) (resolveSource_memReg hin s.pc) rfl
  · exact execute2_source_fault (resolveSource_memReg_fault hout s.pc) rfl

/-- Settles O30: the destination is the word at the address in a register, which MOV does not read, so that only the
write can fault. -/
theorem movFromImmediateOrRegisterToMemory : Obligations.MovFromImmediateOrRegisterToMemory := by
  refine ⟨codedFieldRd (op := .mov) (m := .iMr) fun _ _ => rfl, codedRsRd (op := .mov) (m := .rMr) fun _ _ => rfl,
    fun imm rd s hwf hin => ?_, fun imm rd s hout => ?_, fun rs rd s hwf hin => ?_, fun rs rd s hout => ?_⟩
  · exact execute2_mem (op := .mov) (src := .imm imm) rfl rfl (resolveDest_memReg s 11 rd) hwf hin
  · exact execute2_mem_fault (op := .mov) (src := .imm imm) rfl rfl (resolveDest_memReg s 11 rd) hout
  · exact execute2_mem (op := .mov) (resolveSource_reg s 3 s.pc rs) rfl (resolveDest_memReg s 3 rd) hwf hin
  · exact execute2_mem_fault (op := .mov) (resolveSource_reg s 3 s.pc rs) rfl (resolveDest_memReg s 3 rd) hout

/-- Settles O31: the source word is read whole before the write, so its range is checked first, and the word stored is
that of the state before. -/
theorem movFromMemoryToMemory : Obligations.MovFromMemoryToMemory := by
  refine ⟨codedFieldField (op := .mov) (m := .miMi) fun _ _ => rfl, fun sa da s hwf hsa hda => ?_,
    fun sa da s hsa => ?_, fun sa da s hsa hda => ?_⟩
  · exact execute2_mem (op := .mov) (resolveSource_memImm hsa 19 s.pc) rfl rfl hwf hda
  · exact execute2_source_fault (resolveSource_memImm_fault hsa 19 s.pc) rfl
  · exact execute2_mem_fault (op := .mov) (resolveSource_memImm hsa 19 s.pc) rfl rfl hda

end Sys2Proof.Machine

/-! ADD and SUB (R150 to R171): each addressing combination run once for any two-operand opcode, then the two opcodes,
and that SUB undoes ADD. -/

namespace Sys2Proof.Machine

/-! ### The seven addressing combinations

Each is its source resolved past the instruction, and its destination. `exec` of an instruction is `execute2` of its
opcode on its operands by computation, and `op2Value` of that opcode is its arithmetic. -/

theorem execute2_ir (op : Op2) (imm : Word) (rd : Reg) (s : State) :
    ∃ t, execute2 op (.imm imm) (.reg rd) s = .next t ∧ WritesRegister s t 11 rd (op2Value op (seen s 11 rd) imm) :=
  execute2_reg rfl rfl

theorem execute2_rr (op : Op2) (rs rd : Reg) (s : State) :
    ∃ t, execute2 op (.reg rs) (.reg rd) s = .next t ∧
      WritesRegister s t 3 rd (op2Value op (seen s 3 rd) (seen s 3 rs)) :=
  execute2_reg (resolveSource_reg s 3 s.pc rs) rfl

theorem execute2_miR (op : Op2) (sa : Word) (rd : Reg) (s : State) (hin : InRange sa .word) :
    ∃ t, execute2 op (.memImm sa) (.reg rd) s = .next t ∧
      WritesRegister s t 11 rd (op2Value op (seen s 11 rd) (s.mem.readWord sa.toNat)) :=
  execute2_reg (resolveSource_memImm hin 11 s.pc) rfl

theorem execute2_miR_fault (op : Op2) (sa : Word) (rd : Reg) (s : State) (hout : ¬InRange sa .word) :
    execute2 op (.memImm sa) (.reg rd) s = .fault (.memoryFault sa .word .read s.pc) :=
  execute2_source_fault (resolveSource_memImm_fault hout 11 s.pc) rfl

theorem execute2_mrR (op : Op2) (rs rd : Reg) (s : State) (hin : InRange (seen s 3 rs) .byte) :
    ∃ t, execute2 op (.memReg rs) (.reg rd) s = .next t ∧
      WritesRegister s t 3 rd (op2Value op (seen s 3 rd) (zext64 (s.mem.read (seen s 3 rs).toNat))) :=
  execute2_reg (resolveSource_memReg hin s.pc) rfl

theorem execute2_mrR_fault (op : Op2) (rs rd : Reg) (s : State) (hout : ¬InRange (seen s 3 rs) .byte) :
    execute2 op (.memReg rs) (.reg rd) s = .fault (.memoryFault (seen s 3 rs) .byte .read s.pc) :=
  execute2_source_fault (resolveSource_memReg_fault hout s.pc) rfl

theorem execute2_iMr (op : Op2) (imm : Word) (rd : Reg) (s : State) (hwf : s.mem.wf)
    (hin : InRange (seen s 11 rd) .word) :
    ∃ t, execute2 op (.imm imm) (.memReg rd) s = .next t ∧
      WritesWord s t 11 (seen s 11 rd) (op2Value op (s.mem.readWord (seen s 11 rd).toNat) imm) :=
  execute2_mem rfl rfl (resolveDest_memReg s 11 rd) hwf hin

theorem execute2_iMr_fault (op : Op2) (imm : Word) (rd : Reg) (s : State) (hout : ¬InRange (seen s 11 rd) .word) :
    execute2 op (.imm imm) (.memReg rd) s =
      .fault (.memoryFault (seen s 11 rd) .word (if op = .mov then .write else .read) s.pc) :=
  execute2_mem_fault (src := .imm imm) rfl rfl (resolveDest_memReg s 11 rd) hout

theorem execute2_rMr (op : Op2) (rs rd : Reg) (s : State) (hwf : s.mem.wf) (hin : InRange (seen s 3 rd) .word) :
    ∃ t, execute2 op (.reg rs) (.memReg rd) s = .next t ∧
      WritesWord s t 3 (seen s 3 rd) (op2Value op (s.mem.readWord (seen s 3 rd).toNat) (seen s 3 rs)) :=
  execute2_mem (resolveSource_reg s 3 s.pc rs) rfl (resolveDest_memReg s 3 rd) hwf hin

theorem execute2_rMr_fault (op : Op2) (rs rd : Reg) (s : State) (hout : ¬InRange (seen s 3 rd) .word) :
    execute2 op (.reg rs) (.memReg rd) s =
      .fault (.memoryFault (seen s 3 rd) .word (if op = .mov then .write else .read) s.pc) :=
  execute2_mem_fault (resolveSource_reg s 3 s.pc rs) rfl (resolveDest_memReg s 3 rd) hout

theorem execute2_miMi (op : Op2) (sa da : Word) (s : State) (hwf : s.mem.wf) (hsa : InRange sa .word)
    (hda : InRange da .word) :
    ∃ t, execute2 op (.memImm sa) (.memImm da) s = .next t ∧
      WritesWord s t 19 da (op2Value op (s.mem.readWord da.toNat) (s.mem.readWord sa.toNat)) :=
  execute2_mem (resolveSource_memImm hsa 19 s.pc) rfl rfl hwf hda

theorem execute2_miMi_source_fault (op : Op2) (sa da : Word) (s : State) (hsa : ¬InRange sa .word) :
    execute2 op (.memImm sa) (.memImm da) s = .fault (.memoryFault sa .word .read s.pc) :=
  execute2_source_fault (resolveSource_memImm_fault hsa 19 s.pc) rfl

theorem execute2_miMi_dest_fault (op : Op2) (sa da : Word) (s : State) (hsa : InRange sa .word)
    (hda : ¬InRange da .word) :
    execute2 op (.memImm sa) (.memImm da) s =
      .fault (.memoryFault da .word (if op = .mov then .write else .read) s.pc) :=
  execute2_mem_fault (resolveSource_memImm hsa 19 s.pc) rfl rfl hda

/-! ### ADD -/

/-- Settles O32: neither source can fault, and the register is read past the instruction. -/
theorem addImmediateOrRegisterToRegister : Obligations.AddImmediateOrRegisterToRegister :=
  ⟨codedFieldRd (op := .add) (m := .ir) fun _ _ => rfl, codedRsRd (op := .add) (m := .rr) fun _ _ => rfl,
    execute2_ir .add, execute2_rr .add⟩

/-- Settles O33: only the source's read can fault. -/
theorem addMemoryToRegister : Obligations.AddMemoryToRegister :=
  ⟨codedFieldRd (op := .add) (m := .miR) fun _ _ => rfl, codedRsRd (op := .add) (m := .mrR) fun _ _ => rfl,
    execute2_miR .add, execute2_miR_fault .add, execute2_mrR .add, execute2_mrR_fault .add⟩

/-- Settles O34: the destination's word is read before it is written, so its fault is a read fault. -/
theorem addImmediateOrRegisterToMemory : Obligations.AddImmediateOrRegisterToMemory :=
  ⟨codedFieldRd (op := .add) (m := .iMr) fun _ _ => rfl, codedRsRd (op := .add) (m := .rMr) fun _ _ => rfl,
    execute2_iMr .add, execute2_iMr_fault .add, execute2_rMr .add, execute2_rMr_fault .add⟩

/-- Settles O35: both words are those of the state before, and the source's range is checked first. -/
theorem addMemoryToMemory : Obligations.AddMemoryToMemory :=
  ⟨codedFieldField (op := .add) (m := .miMi) fun _ _ => rfl, execute2_miMi .add, execute2_miMi_source_fault .add,
    execute2_miMi_dest_fault .add⟩

/-! ### SUB -/

/-- Settles O36: as ADD, with the destination as the minuend. -/
theorem subImmediateOrRegisterToRegister : Obligations.SubImmediateOrRegisterToRegister :=
  ⟨codedFieldRd (op := .sub) (m := .ir) fun _ _ => rfl, codedRsRd (op := .sub) (m := .rr) fun _ _ => rfl,
    execute2_ir .sub, execute2_rr .sub⟩

/-- Settles O37: only the source's read can fault. -/
theorem subMemoryToRegister : Obligations.SubMemoryToRegister :=
  ⟨codedFieldRd (op := .sub) (m := .miR) fun _ _ => rfl, codedRsRd (op := .sub) (m := .mrR) fun _ _ => rfl,
    execute2_miR .sub, execute2_miR_fault .sub, execute2_mrR .sub, execute2_mrR_fault .sub⟩

/-- Settles O38: the destination's word is read before it is written, so its fault is a read fault. -/
theorem subImmediateOrRegisterToMemory : Obligations.SubImmediateOrRegisterToMemory :=
  ⟨codedFieldRd (op := .sub) (m := .iMr) fun _ _ => rfl, codedRsRd (op := .sub) (m := .rMr) fun _ _ => rfl,
    execute2_iMr .sub, execute2_iMr_fault .sub, execute2_rMr .sub, execute2_rMr_fault .sub⟩

/-- Settles O39: both words are those of the state before, and the source's range is checked first. -/
theorem subMemoryToMemory : Obligations.SubMemoryToMemory :=
  ⟨codedFieldField (op := .sub) (m := .miMi) fun _ _ => rfl, execute2_miMi .sub, execute2_miMi_source_fault .sub,
    execute2_miMi_dest_fault .sub⟩

/-! ### SUB undoes ADD -/

theorem seen_of_ne_pc (s : State) (len : Nat) {r : Reg} (h : r ≠ .pc) : seen s len r = s.reg r := if_neg h

/-- What holds of the next state an operation comes to holds of each next state it is known to come to. -/
theorem of_exists_next {x : Host.Outcome State Fault Refusal} {P : State → Prop} {t : State}
    (h : ∃ t', x = .next t' ∧ P t') (ht : x = .next t) : P t := by
  obtain ⟨t', ht', hp⟩ := h
  cases ht'.symm.trans ht
  exact hp

theorem execute2_rr_next {op : Op2} {rs rd : Reg} {s t : State} (h : execute2 op (.reg rs) (.reg rd) s = .next t) :
    WritesRegister s t 3 rd (op2Value op (seen s 3 rd) (seen s 3 rs)) :=
  of_exists_next (execute2_rr op rs rd s) h

/-- An immediate combined into memory that answers a next state did so in range. -/
theorem execute2_iMr_next {op : Op2} {imm : Word} {rd : Reg} {s t : State} (hwf : s.mem.wf)
    (h : execute2 op (.imm imm) (.memReg rd) s = .next t) :
    WritesWord s t 11 (seen s 11 rd) (op2Value op (s.mem.readWord (seen s 11 rd).toNat) imm) := by
  by_cases hin : InRange (seen s 11 rd) .word
  · exact of_exists_next (execute2_iMr op imm rd s hwf hin) h
  · rw [execute2_iMr_fault op imm rd s hin] at h
    cases h

/-- An instruction keeps the canonical form of the memory. -/
theorem exec_keeps_wf {i : Instr} {s t : State} (hwf : s.mem.wf) (h : exec i s = .next t) : t.mem.wf := by
  cases hst : storeOf i s with
  | none => rwa [exec_mem_of_storeOf_none h hst]
  | some store =>
    obtain ⟨_, bytes, _, hmem⟩ := exec_mem_of_storeOf_some h hst
    rw [hmem]
    exact Memory.writeList_wf hwf _ bytes

/-- Canonical memories with the same word at an address and the same bytes outside it are equal. -/
theorem Memory.eq_of_wordAt {m n : Memory} (hm : m.wf) (hn : n.wf) {addr : Nat} {v : Word} (hmv : WordAt m addr v)
    (hnv : WordAt n addr v) (hout : ∀ x, x < addr ∨ addr + 8 ≤ x → m.read x = n.read x) : m = n := by
  refine Memory.ext_read hm hn fun x => ?_
  by_cases hx : x < addr ∨ addr + 8 ≤ x
  · exact hout x hx
  · obtain ⟨k, rfl⟩ := Nat.exists_eq_add_of_le (show addr ≤ x by omega)
    rw [hmv k (by omega), hnv k (by omega)]

theorem addRR_subRR_restores {rs rd : Reg} {s t u : State} (hne : rs ≠ rd) (hrs : rs ≠ .pc) (hrd : rd ≠ .pc)
    (hadd : exec (.addRR rs rd) s = .next t) (hsub : exec (.subRR rs rd) t = .next u) : u.reg rd = s.reg rd := by
  obtain ⟨htd, htkept, _⟩ := execute2_rr_next (op := .add) hadd
  obtain ⟨hud, _⟩ := execute2_rr_next (op := .sub) hsub
  have hts : t.reg rs = s.reg rs := htkept rs hne hrs
  simp only [seen_of_ne_pc _ _ hrs, seen_of_ne_pc _ _ hrd, op2Value] at htd hud
  rw [hud, htd, hts, BitVec.add_sub_cancel]

theorem addIMr_subIMr_restores {v : Word} {rd : Reg} {s t u : State} (hwf : s.mem.wf) (hrd : rd ≠ .pc)
    (hadd : exec (.addIMr v rd) s = .next t) (hsub : exec (.subIMr v rd) t = .next u) : u.mem = s.mem := by
  have htwf : t.mem.wf := exec_keeps_wf hwf hadd
  obtain ⟨htreg, _, _, htword, htout⟩ := execute2_iMr_next (op := .add) hwf hadd
  obtain ⟨_, _, _, huword, huout⟩ := execute2_iMr_next (op := .sub) htwf hsub
  have haddr : seen t 11 rd = seen s 11 rd := by rw [seen_of_ne_pc _ _ hrd, seen_of_ne_pc _ _ hrd, htreg rd hrd]
  rw [haddr] at huword huout
  rw [readWord_of_wordAt htword, op2Value, op2Value, BitVec.add_sub_cancel] at huword
  exact Memory.eq_of_wordAt (exec_keeps_wf htwf hsub) hwf huword (wordAt_readWord _ _)
    fun x hx => (huout x hx).trans (htout x hx)

theorem subRR_self {r : Reg} {s t : State} (h : exec (.subRR r r) s = .next t) : t.reg r = 0 := by
  obtain ⟨hr, _⟩ := execute2_rr_next (op := .sub) h
  exact hr.trans (BitVec.sub_self _)

/-- Settles O45: the subtrahend is what the sum was made with, since the addition leaves the register or the immediate,
and the address, as they were. -/
theorem subtractionUndoesAddition : Obligations.SubtractionUndoesAddition :=
  ⟨fun _ _ _ _ _ => addRR_subRR_restores, fun _ _ _ _ _ => addIMr_subIMr_restores, fun _ _ _ => subRR_self⟩

end Sys2Proof.Machine

/-! NOT and NOT6 (R180 to R183): how the one-operand encodings run, each operand kind's effect, the two opcodes, and that
a complement undoes itself. -/

namespace Sys2Proof.Machine

/-! ### The one-operand encodings

The kind in the high cmode nibble decides whether the low one is a register code, checked, or ignored before a field
(R81 to R84). -/

theorem parseF1_reg (op : Op1) (r : Nibble) (bytes : List Byte) :
    parseF1 op (byteOf 0x0 r :: bytes) = takeReg r >>= fun q => .ok (instrCmplReg op q, bytes) := by
  simp [parseF1, cmplKindTable]

theorem parseF1_memImm (op : Op1) (r : Nibble) (bytes : List Byte) :
    parseF1 op (byteOf 0x1 r :: bytes) =
      takeWord 2 bytes >>= fun field => .ok (instrCmplMemImm op field.1, field.2) := by
  simp [parseF1, cmplKindTable]

theorem parseF1_memReg (op : Op1) (r : Nibble) (bytes : List Byte) :
    parseF1 op (byteOf 0x2 r :: bytes) = takeReg r >>= fun q => .ok (instrCmplMemReg op q, bytes) := by
  simp [parseF1, cmplKindTable]

/-- The bytes of a one-operand instruction decode as what follows their opcode does. -/
theorem decode_oneOperand (op : Op1) (bytes : List Byte) :
    decode ((Opcode.one op).byte :: bytes) = parseF1 op bytes := by
  rw [decode_eq_parse, parse_one]

/-- The two-byte encodings: the code is checked. -/
theorem codedR {op : Op1} {kind : Nibble} {i : Reg → Instr}
    (hparse : ∀ r bytes, parseF1 op (byteOf kind r :: bytes) = takeReg r >>= fun q => .ok (i q, bytes)) :
    CodedR (Opcode.one op).byte kind i := by
  intro r
  refine ⟨fun hr => raises_of_decode (e := .register r) (by simp [maxLength]) (fun rest => ?_) (fun _ => rfl),
    fun q hq => runsAs_of_decode (by simp [maxLength]) fun rest => ?_⟩
  · exact (decode_oneOperand op (byteOf kind r :: rest)).trans (by rw [hparse, takeReg_of_invalid hr]; rfl)
  · exact (decode_oneOperand op (byteOf kind r :: rest)).trans (by rw [hparse, takeReg_of_some hq]; rfl)

/-- The ten-byte encodings: no code is checked. -/
theorem codedField_memImm (op : Op1) : CodedField (Opcode.one op).byte 0x1 (instrCmplMemImm op) := fun r v =>
  runsAs_of_decode (by simp [maxLength]) fun rest =>
    (decode_oneOperand op (byteOf 0x1 r :: (bytesOfWord v ++ rest))).trans
      (by rw [parseF1_memImm, takeWord_bytesOfWord]; rfl)

theorem raises_kind (op : Op1) {kind : Nibble} (h : 2 < kind.toNat) (r : Nibble) :
    Raises [(Opcode.one op).byte, byteOf kind r] (.decodeFault .cmode (byteOf kind r)) := by
  have hkind : cmplKindTable (hiNibble (byteOf kind r)) = none := by rw [hiNibble_byteOf, cmplKindTable_eq_none.2 h]
  exact raises_cmode (opcodeOf_byte (.one op)) hkind

/-! ### The operand kinds in memory

`exec` of an instruction is `execute1` of its operand by computation, for either opcode. -/

theorem execute1_memImm (da : Word) (s : State) (hwf : s.mem.wf) (hin : InRange da .byte) :
    ∃ t, execute1 (.memImm da) s = .next t ∧ WritesByte s t 10 da (~~~(s.mem.read da.toNat)) :=
  execute1_mem rfl rfl hwf hin

theorem execute1_memImm_fault (da : Word) (s : State) (hout : ¬InRange da .byte) :
    execute1 (.memImm da) s = .fault (.memoryFault da .byte .read s.pc) :=
  execute1_mem_fault rfl rfl hout

theorem execute1_memReg (r : Reg) (s : State) (hwf : s.mem.wf) (hin : InRange (seen s 2 r) .byte) :
    ∃ t, execute1 (.memReg r) s = .next t ∧ WritesByte s t 2 (seen s 2 r) (~~~(s.mem.read (seen s 2 r).toNat)) :=
  execute1_mem rfl (resolveDest_memReg s 2 r) hwf hin

theorem execute1_memReg_fault (r : Reg) (s : State) (hout : ¬InRange (seen s 2 r) .byte) :
    execute1 (.memReg r) s = .fault (.memoryFault (seen s 2 r) .byte .read s.pc) :=
  execute1_mem_fault rfl (resolveDest_memReg s 2 r) hout

/-! ### NOT and NOT6 -/

/-- Settles O40: a register cannot fault, and a byte is read before it is written, so its fault is a read fault. -/
theorem notComplements : Obligations.NotComplements :=
  ⟨codedR (parseF1_reg .not), codedField_memImm .not, codedR (parseF1_memReg .not),
    fun _ r hkind => raises_kind .not hkind r,
    execute1_reg, execute1_memImm, execute1_memImm_fault, execute1_memReg, execute1_memReg_fault⟩

/-- Settles O41: as NOT, whose operand is executed by the same function. -/
theorem not6Complements : Obligations.Not6Complements :=
  ⟨codedR (parseF1_reg .not6), codedField_memImm .not6, codedR (parseF1_memReg .not6),
    fun _ r hkind => raises_kind .not6 hkind r,
    execute1_reg, execute1_memImm, execute1_memImm_fault, execute1_memReg, execute1_memReg_fault,
    fun _ _ => ⟨rfl, rfl⟩, fun _ _ => rfl⟩

/-! ### A complement undoes itself -/

theorem exec_instrCmplReg (op : Op1) (r : Reg) (s : State) : exec (instrCmplReg op r) s = execute1 (.reg r) s := by
  cases op <;> rfl

theorem exec_instrCmplMemImm (op : Op1) (da : Word) (s : State) :
    exec (instrCmplMemImm op da) s = execute1 (.memImm da) s := by
  cases op <;> rfl

theorem exec_instrCmplMemReg (op : Op1) (r : Reg) (s : State) :
    exec (instrCmplMemReg op r) s = execute1 (.memReg r) s := by
  cases op <;> rfl

/-- Any register but PC is complemented as the state before holds it; PC is seen past the instruction (R101). -/
theorem reg_of_exec_instrCmplReg {op : Op1} {r : Reg} {s t : State} (hr : r ≠ .pc)
    (h : exec (instrCmplReg op r) s = .next t) : t.reg r = ~~~(s.reg r) := by
  rw [exec_instrCmplReg] at h
  obtain ⟨hreg, _⟩ := of_exists_next (execute1_reg r s) h
  rw [hreg, seen_of_ne_pc s 2 hr]

/-- A complement of memory that answers a next state wrote the complement of the byte it read, and no other. -/
theorem mem_of_execute1_mem {d : Dest} {s t : State} {addr : Word}
    (hd : resolveDest d (s.advance (2 + destFieldBytes d)) = .mem addr) (h : execute1 d s = .next t) :
    t.mem = s.mem.write addr.toNat (~~~(s.mem.read addr.toNat)) := by
  rw [execute1, outcomeOf_eq_next] at h
  obtain ⟨r, rfl, _⟩ | ⟨addr', ha, _, rfl⟩ := operate1_ok h
  · cases hd
  · cases hd.symm.trans ha
    rfl

/-- The two memory forms on one address have one effect on the memory, under either opcode. -/
theorem mem_of_exec_complement {op : Op1} {i : Instr} {addr : Word} {s t : State}
    (hi : i = instrCmplMemImm op addr ∨ ∃ r, i = instrCmplMemReg op r ∧ seen s 2 r = addr) (h : exec i s = .next t) :
    t.mem = s.mem.write addr.toNat (~~~(s.mem.read addr.toNat)) := by
  obtain rfl | ⟨r, rfl, rfl⟩ := hi
  · rw [exec_instrCmplMemImm] at h
    exact mem_of_execute1_mem rfl h
  · rw [exec_instrCmplMemReg] at h
    exact mem_of_execute1_mem (resolveDest_memReg s 2 r) h

/-- Writing back the byte that stood at an address restores a canonical memory, whatever was written there since. -/
theorem Memory.write_write_read {m : Memory} (h : m.wf) (addr : Nat) (v : Byte) :
    (m.write addr v).write addr (m.read addr) = m := by
  have hv : (m.write addr v).wf := Memory.write_wf h addr v
  refine Memory.ext_read (Memory.write_wf hv _ _) h fun x => ?_
  rw [Memory.read_write hv, Memory.read_write h]
  by_cases hx : x = addr
  · rw [if_pos hx, hx]
  · rw [if_neg hx, if_neg hx]

/-- Settles O44: the second complement reads what the first wrote, and writes back what stood there before. -/
theorem complementingTwiceRestores : Obligations.ComplementingTwiceRestores := by
  refine ⟨fun op op' r s t u hr hst htu => ?_, fun op op' i j addr s t u hwf hi hj hst htu => ?_⟩
  · rw [reg_of_exec_instrCmplReg hr htu, reg_of_exec_instrCmplReg hr hst, BitVec.not_not]
  · have hread : t.mem.read addr.toNat = ~~~(s.mem.read addr.toNat) := by
      rw [mem_of_exec_complement hi hst, Memory.read_write hwf, if_pos rfl]
    calc u.mem
      _ = t.mem.write addr.toNat (~~~(t.mem.read addr.toNat)) := mem_of_exec_complement hj htu
      _ = t.mem.write addr.toNat (s.mem.read addr.toNat) := by rw [hread, BitVec.not_not]
      _ = s.mem := by rw [mem_of_exec_complement hi hst, Memory.write_write_read hwf]

end Sys2Proof.Machine

/-! NOP and HALT (R190, R191), and what writing PC does to the flow of control (R193 to R195). -/

namespace Sys2Proof.Machine

/-! ### NOP and HALT -/

/-- All NOP does: PC passes it (R190). -/
theorem exec_nop (s : State) : exec .nop s = .next (s.advance 1) := rfl

/-- Settles O42: PC moves by the length of NOP, and passing an instruction touches nothing else. -/
theorem nopOnlyMovesPc : Obligations.NopOnlyMovesPc :=
  ⟨runsAs_encode .nop,
    fun s => ⟨s.advance 1, exec_nop s, fun _ => State.reg_advance_ne s 1, State.reg_advance_pc s 1,
      ⟨rfl, rfl, rfl, rfl⟩, fun _ => rfl⟩,
    fun _ => step_of_capacity_le_pc⟩

/-- READ AFTER WRITE, for a flag bit read at any index: past the eight bits both bytes read as clear. -/
theorem getLsbD_writeBit (flags : BitVec 8) (n : Fin 8) (m : Nat) (v : Bool) :
    (writeBit flags n v).getLsbD m = if m = n then v else flags.getLsbD m := by
  by_cases hm : m < 8
  · simpa [testBit, Fin.ext_iff] using testBit_writeBit flags n ⟨m, hm⟩ v
  · rw [if_neg (by omega), BitVec.getLsbD_of_ge _ _ (by omega), BitVec.getLsbD_of_ge _ _ (by omega)]

/-- Settles O43: HALT is NOP but for the one flag bit it writes. -/
theorem haltSetsTheHaltBit : Obligations.HaltSetsTheHaltBit := by
  refine ⟨runsAs_encode .halt, fun s => ⟨(s.advance 1).setHalt, exec_halt s, ?set, ?others, ?registers,
    State.reg_advance_pc s 1, fun _ => rfl, rfl, rfl, rfl⟩, fun _ => step_of_capacity_le_pc⟩
  case set => exact (getLsbD_writeBit ..).trans (if_pos rfl)
  case others => exact fun n hn => (getLsbD_writeBit ..).trans (if_neg hn)
  case registers => exact fun r hr => by rw [State.reg_setHalt, State.reg_advance_ne s 1 hr]

/-! ### Writing PC -/

theorem seen_closeLoad (s : State) (len : Nat) (r : Reg) : seen s.closeLoad len r = seen s len r := by
  rw [seen, seen, State.pc_closeLoad, State.reg_closeLoad]

theorem toNat_zext64_le (b : Byte) : (zext64 b).toNat ≤ 255 := by
  have hb := b.isLt
  rw [zext64, BitVec.toNat_setWidth_of_le (by decide)]
  omega

/-- An instruction at PC whose effect is to write `target` to PC transfers control there, whatever the target: the step
completes, and it is the next step's fetch that faults where the target is outside the memory (R193, R195). -/
theorem step_to_of_writesRegister_pc {s : State} {i : Instr} {len : Nat} {target : Word} (hs : s.status = .running)
    (hb : AtPc s (encode i)) (h : ∃ t, exec i s.closeLoad = .next t ∧ WritesRegister s.closeLoad t len .pc target) :
    ∃ t, step s = .next t ∧ t.pc = target ∧
      (Config.memCapacity ≤ target.toNat → step t = .fault (.memoryFault target .byte .fetch target)) := by
  obtain ⟨t, hexec, rfl, _, _, ⟨_, hstatus, _⟩, _⟩ := h
  exact ⟨t, (runsAs_encode i s hs hb).trans hexec, rfl, step_of_capacity_le_pc (hstatus.trans hs)⟩

theorem step_pc_of_writesRegister_pc {s : State} {i : Instr} {len : Nat} {target : Word} (hs : s.status = .running)
    (hb : AtPc s (encode i)) (h : ∃ t, exec i s.closeLoad = .next t ∧ WritesRegister s.closeLoad t len .pc target) :
    ∃ t, step s = .next t ∧ t.pc = target := by
  obtain ⟨t, hstep, hpc, _⟩ := step_to_of_writesRegister_pc hs hb h
  exact ⟨t, hstep, hpc⟩

/-- Settles O46: each instruction writes PC, MOV what its source holds and ADD and SUB what they compute from the address
after the instruction, which is the PC they see (R101). -/
theorem writingPcTransfersControl : Obligations.WritingPcTransfersControl := by
  refine ⟨fun s target hs hb => ?movIR, fun s k hs hb => ?addIR, fun s k hs hb => ?subIR, fun s r hs hr hb => ?movRR,
    fun s sa hs hin hb => ?movMiR, fun s r hs hin hb => ?movMrR⟩
  case movIR => exact step_to_of_writesRegister_pc hs hb (execute2_ir .mov target .pc s.closeLoad)
  case addIR => exact step_pc_of_writesRegister_pc hs hb (execute2_ir .add k .pc s.closeLoad)
  case subIR => exact step_pc_of_writesRegister_pc hs hb (execute2_ir .sub k .pc s.closeLoad)
  case movRR =>
    have hseen : seen s.closeLoad 3 r = s.reg r := by rw [seen_closeLoad, seen_of_ne_pc s 3 hr]
    rw [← hseen]
    exact step_pc_of_writesRegister_pc hs hb (execute2_rr .mov r .pc s.closeLoad)
  case movMiR => exact step_pc_of_writesRegister_pc hs hb (execute2_miR .mov sa .pc s.closeLoad hin)
  case movMrR =>
    rw [← seen_closeLoad] at hin ⊢
    obtain ⟨t, hstep, hpc⟩ := step_pc_of_writesRegister_pc hs hb (execute2_mrR .mov r .pc s.closeLoad hin)
    exact ⟨t, hstep, hpc, hpc ▸ toNat_zext64_le _⟩

end Sys2Proof.Machine

/-! The exceptions (R200 to R209): what a Running core's step can fault with and where it comes from, that a fault
leaves all but PC, and that nothing runs after it. -/

namespace Sys2Proof.Machine

/-! ### Where a step's fault comes from -/

/-- ALL THAT STOPS A STEP of a Running core: the bytes at PC are rejected, or a data access is out of range. -/
theorem step_fault {s : State} {f : Fault} (hs : s.status = .running) (h : step s = .fault f) :
    (∃ e, decode (fetchWindow s) = .error e ∧ rejectOutcome s.pc e = .fault f) ∨ FromAccess s.pc f := by
  cases hd : decode (fetchWindow s) with
  | error e => exact .inl ⟨e, rfl, (step_of_reject hs hd).symm.trans h⟩
  | ok decoded => exact .inr (exec_fault (s := s.closeLoad) ((step_of_decode hs hd).symm.trans h))

/-- One of the three faults of the spec (R200), as the instruction at `start` raises it. -/
def SpecFault (start : Word) (f : Fault) : Prop :=
  (∃ kind byte, f = .decodeFault kind byte start) ∨
    (∃ code, f = .registerFault code start ∧ 6 < code.toNat) ∨
    (∃ addr w access, f = .memoryFault addr w access start ∧ ¬InRange addr w)

theorem SpecFault.start_eq {start : Word} {f : Fault} (h : SpecFault start f) : f.start = start := by
  obtain ⟨_, _, rfl⟩ | ⟨_, rfl, _⟩ | ⟨_, _, _, rfl, _⟩ := h
  · rfl
  · rfl
  · rfl

/-- A fetch that finds too few bytes at PC is out of range. -/
theorem not_inRange_of_missingIn {s : State} {offset : Nat} {w : Width} (h : MissingIn (fetchWindow s) offset w) :
    ¬InRange (s.pc + BitVec.ofNat 64 offset) w := by
  obtain ⟨hle, hshort, hmax⟩ := h
  rw [inRange_fetch hle hmax]
  exact Nat.not_le.2 hshort

theorem specFault_of_reject {s : State} {e : Reject} {f : Fault} (hd : decode (fetchWindow s) = .error e)
    (hf : rejectOutcome s.pc e = .fault f) : SpecFault s.pc f := by
  rw [decode_eq_parse] at hd
  cases e with
  | opcode b => cases hf; exact .inl ⟨_, _, rfl⟩
  | mode b => cases hf; exact .inl ⟨_, _, rfl⟩
  | cmode b => cases hf; exact .inl ⟨_, _, rfl⟩
  | register code => cases hf; exact .inr (.inl ⟨_, rfl, (parse_register hd).1⟩)
  | truncated offset w => cases hf; exact .inr (.inr ⟨_, _, _, rfl, not_inRange_of_missingIn (parse_truncated hd)⟩)
  | ignoredBits => cases hf

theorem step_fault_specFault {s : State} {f : Fault} (hs : s.status = .running) (h : step s = .fault f) :
    SpecFault s.pc f := by
  obtain ⟨e, hd, hf⟩ | ⟨addr, w, access, rfl, hout, _⟩ := step_fault hs h
  · exact specFault_of_reject hd hf
  · exact .inr (.inr ⟨addr, w, access, rfl, hout⟩)

/-- Settles O22: rejection is one of the three faults, and an instruction faults only on a data access out of range. -/
theorem everyFaultIsOneOfThree : Obligations.EveryFaultIsOneOfThree := fun _ _ hs h =>
  ⟨(step_fault_specFault hs h).start_eq, step_fault_specFault hs h⟩

/-! ### What a fault leaves, and that it is final -/

/-- Settles O24: a step that faults has computed no next state, and taking the fault writes PC and the status only. -/
theorem aFaultLeavesEverythingButPc : Obligations.AFaultLeavesEverythingButPc := by
  intro s f hs h
  refine ⟨s.closeLoad.raiseFault f, stepPort_of_fault hs h, ?registers, rfl, fun _ => rfl, rfl,
    (step_fault_specFault hs h).start_eq⟩
  case registers =>
    intro r hr
    rw [State.reg_raiseFault_ne _ _ hr, State.reg_closeLoad]

/-- Whether the core was Faulted before or faults now, it is Faulted after. -/
theorem stepPort_status_of_fault {s : State} {f : Fault} (h : step s = .fault f) :
    (stepPort s).1.status = .faulted f := by
  cases hs : s.status with
  | running => rw [stepPort_of_fault hs h, State.status_raiseFault]
  | faulted record =>
    rw [step_faulted hs] at h
    cases h
    rw [stepPort_of_faulted hs, hs]

/-- Settles O15: the state after a fault is Faulted, hence a fixed point of `Step()`; the ports that read do not look at
the run status. -/
theorem faultedIsTerminal : Obligations.FaultedIsTerminal := by
  refine ⟨fun s f hs => ⟨step_faulted hs, stepPort_of_faulted hs⟩, fun s f h n => ?_,
    fun s f _ => ⟨fun r => regRead_of_some (regOfCode_codeOfReg r) s, fun _ hr => memReadByte_of_inRange hr s,
      fun _ => rfl⟩⟩
  have hfixed : (stepPort (stepPort s).1).1 = (stepPort s).1 := by
    rw [stepPort_of_faulted (stepPort_status_of_fault h)]
  exact Function.iterate_fixed hfixed n

/-! ### Used register codes that name no register -/

/-- A source code is checked before all else that the selector and the fields hold (R208). -/
theorem parseF2Operands_invalid_source {m : Mode} {sel : Byte} (hsrc : m.src.usesReg = true)
    (h : 6 < (hiNibble sel).toNat) (op : Op2) (rest : List Byte) :
    parseF2Operands op m (sel :: rest) = .error (.register (hiNibble sel)) := by
  cases m with
  | rr | mrR | rMr => simp only [parseF2Operands, takeReg_of_invalid h]; rfl
  | ir | miR | iMr | miMi => cases hsrc

/-- A destination code is checked once a source code, where one is used, has passed (R208). -/
theorem parseF2Operands_invalid_dest {m : Mode} {sel : Byte} (hsrc : m.src.usesReg = true → (hiNibble sel).toNat ≤ 6)
    (hdst : m.dst.usesReg = true) (h : 6 < (loNibble sel).toNat) (op : Op2) (rest : List Byte) :
    parseF2Operands op m (sel :: rest) = .error (.register (loNibble sel)) := by
  cases m with
  | rr | mrR | rMr =>
    obtain ⟨r, hr⟩ := regOfCode_isSome (hsrc rfl)
    simp only [parseF2Operands, takeReg_of_some hr, takeReg_of_invalid h]
    rfl
  | ir | miR | iMr => simp only [parseF2Operands, takeReg_of_invalid h]; rfl
  | miMi => cases hdst

/-- A selector rejected for a code raises its fault in any encoding of the combination. -/
theorem raises_selector {b mode sel : Byte} {m : Mode} {code : Nibble} (hb : b ∈ [0x02, 0x03, 0x04])
    (hm : modeTable (loNibble mode) = some m)
    (h : ∀ op rest, parseF2Operands op m (sel :: rest) = .error (.register code)) :
    Raises [b, mode, sel] (.registerFault code) := by
  obtain ⟨op, hop⟩ := opcodeOf_two_of_mem hb
  have hmode : byteOf (hiNibble mode) m.nibble = mode := by rw [nibble_of_modeTable hm, byteOf_nibbles]
  rw [← byte_of_opcodeOf hop, ← hmode]
  exact raises_registerFault (h op) (hiNibble mode)

/-- The one nibble of a complement that may name a register (R83). -/
theorem raises_cmode_register {b cm : Byte} {kind : Kind} (hb : b ∈ [0x05, 0x06])
    (hk : cmplKindTable (hiNibble cm) = some kind) (hused : kind.usesReg = true) (h : 6 < (loNibble cm).toNat) :
    Raises [b, cm] (.registerFault (loNibble cm)) := by
  obtain ⟨op, hop⟩ := opcodeOf_one_of_mem hb
  rw [← byte_of_opcodeOf hop]
  conv in [_, cm] => rw [← byteOf_nibbles cm]
  obtain ⟨hhi, rfl⟩ | ⟨_, rfl⟩ | ⟨hhi, rfl⟩ := cmplKindTable_cases hk
  · rw [hhi]
    exact (codedR (parseF1_reg op) (loNibble cm)).1 h
  · cases hused
  · rw [hhi]
    exact (codedR (parseF1_memReg op) (loNibble cm)).1 h

theorem mem_of_opcodeOf_two {b : Byte} {op : Op2} (h : opcodeOf b = some (.two op)) : b ∈ [0x02, 0x03, 0x04] := by
  rw [← byte_of_opcodeOf h]
  cases op <;> decide

theorem mem_of_opcodeOf_one {b : Byte} {op : Op1} (h : opcodeOf b = some (.one op)) : b ∈ [0x05, 0x06] := by
  rw [← byte_of_opcodeOf h]
  cases op <;> decide

/-- The only rejection that becomes a RegisterFault is that of the code. -/
theorem reject_of_registerFault {pc start : Word} {e : Reject} {code : Nibble}
    (h : rejectOutcome pc e = .fault (.registerFault code start)) : e = .register code ∧ start = pc := by
  cases e with
  | register c => cases h; exact ⟨rfl, rfl⟩
  | opcode | mode | cmode | truncated | ignoredBits => cases h

/-- The head of the window is what memory holds at PC and up. -/
theorem read_of_fetchWindow {s : State} {bytes : List Byte} (h : fetchWindow s = bytes) {k : Nat} {b : Byte}
    (hb : bytes[k]? = some b) : s.mem.read (s.pc.toNat + k) = b := by
  subst h
  obtain ⟨hk, rfl⟩ := List.getElem?_eq_some_iff.1 hb
  exact (getElem_fetchWindow s k hk).symm

/-- Settles O5: an invalid code is rejected where its nibble is used, the source's first; and the only RegisterFault of
a step is a rejected code, which the decoder takes from a used nibble. -/
theorem usedInvalidCodesRaiseRegisterFault : Obligations.UsedInvalidCodesRaiseRegisterFault := by
  refine ⟨fun b hb mode sel m hm => ⟨fun hsrc h => ?_, fun hsrc hdst h => ?_⟩,
    fun b hb cm kind hk hused h => raises_cmode_register hb hk hused h, fun s code start hs h => ?converse⟩
  · exact raises_selector hb hm (parseF2Operands_invalid_source hsrc h)
  · exact raises_selector hb hm (parseF2Operands_invalid_dest hsrc hdst h)
  case converse =>
    obtain ⟨e, hd, hf⟩ | ⟨_, _, _, hf, _⟩ := step_fault hs h
    · obtain ⟨rfl, rfl⟩ := reject_of_registerFault hf
      rw [decode_eq_parse] at hd
      obtain ⟨hcode, ⟨b, o, mode, sel, tail, m, hw, ho, hm, hused⟩ | ⟨b, o, cm, tail, kind, hw, ho, hk, hused⟩⟩ :=
        parse_register hd
      · have h0 : s.mem.read s.pc.toNat = b := read_of_fetchWindow (k := 0) hw rfl
        have h1 : s.mem.read (s.pc.toNat + 1) = mode := read_of_fetchWindow hw rfl
        have h2 : s.mem.read (s.pc.toNat + 2) = sel := read_of_fetchWindow hw rfl
        rw [h0, h1, h2]
        exact ⟨rfl, hcode, .inl ⟨mem_of_opcodeOf_two ho, m, hm, hused⟩⟩
      · have h0 : s.mem.read s.pc.toNat = b := read_of_fetchWindow (k := 0) hw rfl
        have h1 : s.mem.read (s.pc.toNat + 1) = cm := read_of_fetchWindow hw rfl
        rw [h0, h1]
        exact ⟨rfl, hcode, .inr ⟨mem_of_opcodeOf_one ho, kind, hk, hused⟩⟩
    · cases hf

end Sys2Proof.Machine

/-! The one load (R231, R232) and the boot sequence before the first step (R233). -/

namespace Sys2Proof.Machine

/-! ### The outcomes of a load -/

/-- Once closed, the load is refused (R232). -/
theorem loadProgram_of_closed {s : State} (h : s.loadOpen = false) (bytes : List Byte) :
    loadProgram bytes s = .error .loadClosed :=
  if_pos h

/-- A load that does not fit is refused (R231). -/
theorem loadProgram_of_tooLong {s : State} (h : s.loadOpen = true) {bytes : List Byte}
    (hlong : Config.memCapacity < bytes.length) : loadProgram bytes s = .error .loadTooLong := by
  rw [loadProgram, if_neg (ne_false_of_eq_true h), if_pos hlong]

/-- A load that fits writes its bytes from address 0 and closes the load behind it (R231, R232). -/
theorem loadProgram_of_fits {s : State} (h : s.loadOpen = true) {bytes : List Byte}
    (hfits : bytes.length ≤ Config.memCapacity) :
    loadProgram bytes s = .ok ({ s.closeLoad with mem := s.mem.writeList 0 bytes }, bytes.length) := by
  rw [loadProgram, if_neg (ne_false_of_eq_true h), if_neg (Nat.not_lt.2 hfits)]

/-! ### What the memory holds after a load -/

/-- Byte `k` of a program written from address 0 stands at address `k`. -/
theorem Memory.read_writeList_zero {m : Memory} (h : m.wf) (bytes : List Byte) (k : Nat) (hk : k < bytes.length) :
    (m.writeList 0 bytes).read k = bytes[k] := by
  simpa using Memory.read_writeList_inside h 0 bytes k hk

/-- From its end on, a program written from address 0 leaves the memory as it was. -/
theorem Memory.read_writeList_above {m : Memory} (h : m.wf) {bytes : List Byte} {x : Nat} (hx : bytes.length ≤ x) :
    (m.writeList 0 bytes).read x = m.read x :=
  Memory.read_writeList_outside h 0 bytes (.inr (by rwa [Nat.zero_add]))

/-! ### A step closes the load -/

/-- An instruction runs on a core whose load is closed, and leaves it closed. -/
theorem step_next_loadOpen {s t : State} (h : step s = .next t) : t.loadOpen = false := by
  obtain ⟨_, i, _, _, he⟩ := step_next h
  rw [(exec_status_loadOpen_free he).2.1, State.loadOpen_closeLoad]

/-- `Step()` on a Running core leaves the load closed, whether it completes or faults (R232). -/
theorem stepPort_loadOpen {s : State} (hs : s.status = .running) : (stepPort s).1.loadOpen = false := by
  cases hst : step s with
  | next t => rw [stepPort_of_next hst]; exact step_next_loadOpen hst
  | fault f => rw [stepPort_of_fault hs hst]; rfl
  | refused reason => exact absurd hst (noStepIsRefused s reason)

/-- Settles O53: the read-after-write laws of consecutive bytes for the load that fits; it and every step of a Running
core leave the load closed. -/
theorem loadWritesTheProgramOnce : Obligations.LoadWritesTheProgramOnce := by
  refine ⟨?fits, fun _ _ h hlong => loadProgram_of_tooLong h hlong,
    fun _ bytes hs => loadProgram_of_closed (stepPort_loadOpen hs) bytes⟩
  case fits =>
    intro s bytes hwf hopen hfits
    refine ⟨_, loadProgram_of_fits hopen hfits, Memory.read_writeList_zero hwf bytes,
      fun _ hx => Memory.read_writeList_above hwf hx, fun r => ?_, rfl, rfl, rfl,
      fun again => loadProgram_of_closed rfl again⟩
    rw [State.reg_withMem, State.reg_closeLoad]

/-! ### Boot -/

/-- Boot with a program that fits: the created core, the program written from address 0, SP set. -/
theorem boot_of_fits (init : Config.InitRegs) {program : List Byte} (sp : Word)
    (hfits : program.length ≤ Config.memCapacity) :
    boot init program sp = .ok
      ({ (State.create init).closeLoad with mem := (State.create init).mem.writeList 0 program }.setReg .sp sp) := by
  rw [boot, loadProgram_of_fits rfl hfits]
  exact regWrite_of_some (regOfCode_codeOfReg .sp) sp _

/-- A core with no flag set has Halt clear. -/
theorem flag_halt_of_flags_zero {s : State} (h : s.flags = 0) : s.flag .halt = false := by
  rw [State.flag, h]
  decide

/-- Settles O56: in the state boot ends in, the memory is empty but for the program, SP is what the host wrote, and the
other fields are those of creation. -/
theorem bootPlacesTheProgram : Obligations.BootPlacesTheProgram := by
  intro init program sp hfits
  obtain ⟨_, hpc, hflags, hstatus, ha, hb, hc, hd, hbp, _⟩ := creationGivesTheStatedValues init
  exact ⟨_, boot_of_fits init sp hfits, Memory.read_writeList_zero Memory.wf_nil program,
    fun _ hx => Memory.read_writeList_above Memory.wf_nil hx, rfl, hpc, flag_halt_of_flags_zero hflags, hstatus,
    ha, hb, hc, hd, hbp⟩

end Sys2Proof.Machine
